-- ==== Sys2Proof/Word.lean ====
section
/-!
DEFINITION. The word types of the Reduced Machine (spec/00_scope.md R8 to R12): every width the source fixes, and
nothing but types. Bit 0 is the least significant bit, symbol 0 the least significant symbol.
-/

namespace Sys2Proof

/-- One symbol, a value 0..31 (R12, R77). -/
abbrev Symbol := BitVec 5

/-- A short field: an address 0..1023 (R8 ADDR_BITS). -/
abbrev Addr := BitVec 10

/-- A function code, 10 bits (R62). -/
abbrev FnCode := BitVec 10

/-- A line, 20 bits: the unit of storage and of addressing, and the one instruction length (R36, R61). -/
abbrev Line := BitVec 20

/-- An accumulator field, 40 bits (R8 ACC_BITS). -/
abbrev Acc := BitVec 40

/-- A symbolic numeral: symbols, least significant first, of any length (R12, R80). -/
abbrev Numeral := List Symbol

end Sys2Proof
end

