-- ==== Sys2Proof/Config.lean ====
section
/-!
DEFINITION. What is fixed for a machine or for a run and is not state (spec/00_scope.md R8, R9, spec/10_state.md R17):
the map FC from operations to function codes, the ALPHABET of glyphs, and the host's run parameter MAX_STEPS.
The values R8 fixes stand as literals where they are used: RADIX 32 in `Sys2Proof.Machine.dec`; the widths 5, 10, 20
and 40 in Word.lean; STORE_LINES 1024 in `Sys2Proof.Machine.wrap`; RESET_A and RESET_C in
`Sys2Proof.Machine.State.reset`; SIGN_THRESHOLD in `Sys2Proof.Machine.signBit`; MAX_SET_SYMS 8 in
`Sys2Proof.Machine.setText`. The reference values of FC and ALPHABET are `Sys2Proof.fcRef` and
`Sys2Proof.Machine.alphabetRef`.
-/

namespace Sys2Proof

/-- The ten distinguished operations (R63): the domain of FC. -/
inductive Op where
  /-- "conditional branch A" -/
  | cba
  /-- "unconditional branch" -/
  | ubr
  /-- "store accumulator" -/
  | sta
  /-- "load" -/
  | lda
  /-- "clear" -/
  | clr
  /-- "add" -/
  | add
  /-- "subtract" -/
  | sub
  /-- "negate", defined and not supported -/
  | neg
  /-- "double" -/
  | dbl
  /-- "no-op" -/
  | nop
  deriving DecidableEq, Repr

/-- The parameter FC of R9 and R63: a function code for each operation, with the proof that the ten are distinct.
The source gives no code, so the model takes FC as an argument (assumption log 2). -/
structure FunctionCodes where
  /-- FC(op) -/
  code : Op → FnCode
  /-- R63: "injective" -/
  injective : ∀ o p, code o = code p → o = p

/-- The parameter ALPHABET of R9 and R78: 32 distinct glyphs in value order. No semantic rule depends on it; it turns
symbol values into text at the host boundary (assumption log 3). -/
structure Alphabet where
  /-- the glyph of value `i` stands at position `i` -/
  glyphs : List Char
  /-- one glyph for each symbol value -/
  complete : glyphs.length = 32
  /-- the glyphs are distinct -/
  distinct : glyphs.Nodup

/-- The parameters of the block (R9): fixed for a run, never written by the machine (R17). -/
structure Params where
  /-- the function codes -/
  fc : FunctionCodes
  /-- the glyphs -/
  alphabet : Alphabet
  /-- MAX_STEPS, 0 for no bound -/
  maxSteps : Nat

end Sys2Proof
end

