-- ==== Sys2Proof/Syntax.lean ====
section
/-!
DEFINITION. The instructions as syntax (spec/30_encoding.md R61 to R70): one constructor per row of
spec/opcode_table.json, the catch-all INVALID among them, since R134 gives it an effect of its own.
-/

namespace Sys2Proof

/-- An instruction, which is one decoded line: its operand address (line-pair, bits 9:0) and its operation (R62).
CLR, NOP and NEG keep the address they ignore (R69), so that the line can be written back. -/
inductive Instr where
  /-- CBA addr, conditional branch A (R116). -/
  | cba (addr : Addr)
  /-- UBR addr, unconditional branch (R117). -/
  | ubr (addr : Addr)
  /-- STA addr, store accumulator (R120). -/
  | sta (addr : Addr)
  /-- LDA addr, load (R121). -/
  | lda (addr : Addr)
  /-- CLR, clear; the address is ignored (R122). -/
  | clr (addr : Addr)
  /-- ADD addr, add (R124). -/
  | add (addr : Addr)
  /-- SUB addr, subtract (R125). -/
  | sub (addr : Addr)
  /-- NEG, negate: defined and not implemented; the address is ignored (R126). -/
  | neg (addr : Addr)
  /-- DBL addr, double (R127). -/
  | dbl (addr : Addr)
  /-- NOP, no-op; the address is ignored (R133). -/
  | nop (addr : Addr)
  /-- INVALID: any line whose function code is none of the ten (R134). -/
  | invalid (addr : Addr) (fc : FnCode)
  deriving DecidableEq, Repr

end Sys2Proof
end

