-- ==== Sys2Proof/WellFormed.lean ====
section
/-!
DEFINITION. Which terms of `Instr` stand for a line (spec/30_encoding.md R63, R69, R70). Every address is legal for
every operation, so the one check is that INVALID carries a code that is none of the ten.
-/

namespace Sys2Proof

/-- The ten operations, in the order of R66. -/
def Op.all : List Op := [.cba, .ubr, .sta, .lda, .clr, .add, .sub, .neg, .dbl, .nop]

/-- The code belongs to one of the ten operations (R63). -/
def FunctionCodes.assigned (fc : FunctionCodes) (c : FnCode) : Bool :=
  Op.all.any fun o => fc.code o == c

/-- `i` is what some line decodes to under `fc`: INVALID with an assigned code is ill-formed (R70). -/
def Instr.wf (fc : FunctionCodes) : Instr → Bool
  | .cba _ | .ubr _ | .sta _ | .lda _ | .clr _ | .add _ | .sub _ | .neg _ | .dbl _ | .nop _ => true
  | .invalid _ c => !fc.assigned c

end Sys2Proof
end

