-- ==== Sys2Proof/Decode.lean ====
section
/-!
DEFINITION. The instruction decoder and the assembler (spec/30_encoding.md R61 to R76). Decoding is total: a line whose
function code is none of the ten decodes to INVALID, which is rejected by its own name when it is executed (R66, R134).
Decode by text, which the spec shows equal, is `Sys2Proof.Machine.decodeByText`.
-/

namespace Sys2Proof

/-- `addr = line[9:0]`, the line-pair operand (R62). -/
def lineAddr (l : Line) : Addr := l.extractLsb' 0 10

/-- `fc = line[19:10]`, the function code (R62). -/
def lineFc (l : Line) : FnCode := l.extractLsb' 10 10

/-- `line = addr + 1024 * fc` (R62). -/
def mkLine (addr : Addr) (c : FnCode) : Line := c ++ addr

/-- `DecodeFC` (R66): the operation whose code is exactly `c`; `none` is INVALID. -/
def decodeFC (fc : FunctionCodes) (c : FnCode) : Option Op := Op.all.find? fun o => fc.code o == c

/-- An operation with its operand field. -/
def Op.instr (addr : Addr) : Op → Instr
  | .cba => .cba addr
  | .ubr => .ubr addr
  | .sta => .sta addr
  | .lda => .lda addr
  | .clr => .clr addr
  | .add => .add addr
  | .sub => .sub addr
  | .neg => .neg addr
  | .dbl => .dbl addr
  | .nop => .nop addr

/-- The decoder by bits (R65): split the line, then match the function code. -/
def decode (fc : FunctionCodes) (l : Line) : Instr :=
  match decodeFC fc (lineFc l) with
  | some op => op.instr (lineAddr l)
  | none => .invalid (lineAddr l) (lineFc l)

/-- The address field of an instruction (R62). -/
def Instr.addr : Instr → Addr
  | .cba a | .ubr a | .sta a | .lda a | .clr a | .add a | .sub a | .neg a | .dbl a | .nop a => a
  | .invalid a _ => a

/-- The function code of an instruction under `fc` (R63). -/
def Instr.fnCode (fc : FunctionCodes) : Instr → FnCode
  | .cba _ => fc.code .cba
  | .ubr _ => fc.code .ubr
  | .sta _ => fc.code .sta
  | .lda _ => fc.code .lda
  | .clr _ => fc.code .clr
  | .add _ => fc.code .add
  | .sub _ => fc.code .sub
  | .neg _ => fc.code .neg
  | .dbl _ => fc.code .dbl
  | .nop _ => fc.code .nop
  | .invalid _ c => c

/-- The assembler (R76): the line of an instruction. -/
def encode (fc : FunctionCodes) (i : Instr) : Line := mkLine i.addr (i.fnCode fc)

/-- FC_REF, the reference codes of R64 (PRESUMED: the spec marks nine as general knowledge and NOP as a placeholder;
assumption log 2). The model's `step` runs under it, since spec/opcode_table.json does. -/
def fcRef : FunctionCodes where
  code
    | .cba => 640
    | .ubr => 704
    | .sta => 160
    | .lda => 16
    | .clr => 144
    | .add => 208
    | .sub => 400
    | .neg => 432
    | .dbl => 496
    | .nop => 1023
  injective := by intro o p; cases o <;> cases p <;> decide

/-- The line laid out from an opcode-table word: the machine's one word is a line of 20 bits, so bits at and above
`nbits`, and above bit 19, are not part of an instruction (R61). -/
def tableLine (nbits w : Nat) : Line := BitVec.ofNat 20 (w % 2 ^ nbits)

/-- The instruction the decoder reads from an opcode-table word (fixed name of the host). -/
def decodeTableWord (nbits w : Nat) : Option Instr := some (decode fcRef (tableLine nbits w))

end Sys2Proof
end

