-- ==== Sys2Proof/Machine/Flags.lean ====
section
/-!
DEFINITION. The machine has no flags, condition codes or predicates (spec/10_state.md R28): no operation records carry,
overflow, zero or sign. The one condition is bit 39 of the accumulator, tested by CBA (spec/42_control_transfer.md R116),
and the arithmetic results reduce modulo 2^40 without a trace (spec/44_arithmetic.md R128, R129).
-/

namespace Sys2Proof.Machine

/-- `A[39]`, SIGN_THRESHOLD = 2^39 (R8): set exactly when `2^39 ≤ A < 2^40`. -/
def signBit (v : Acc) : Bool := v.getLsbD 39

/-- `(x + y) mod 2^40` (R124). -/
def accAdd (x y : Acc) : Acc := BitVec.ofNat 40 (x.toNat + y.toNat)

/-- `(x - y) mod 2^40`, the non-negative residue (R125). -/
def accSub (x y : Acc) : Acc := BitVec.ofInt 40 ((x.toNat : Int) - (y.toNat : Int))

/-- `(2 * y) mod 2^40` (R127). -/
def accDouble (y : Acc) : Acc := BitVec.ofNat 40 (2 * y.toNat)

end Sys2Proof.Machine
end

