-- ==== Sys2Proof/Machine/State.lean ====
section
/-!
DEFINITION. The machine's state, the reasons a step or a host operation can stop, and the state after reset
(spec/10_state.md R16 to R34, spec/70_reset_and_hazards.md R159). The eight fields of `State` are the eight items of
R16, "and nothing else". ALPHABET, FC and MAX_STEPS are parameters, not state (R17).
-/

namespace Sys2Proof.Machine

/-- `STATUS`, the engine's state (R23, R96): one running value and three terminal ones. -/
inductive Status where
  /-- Running: the only value from which `Step` is enabled. -/
  | running
  /-- HaltedLoop: normal end, a completed cycle left `C` as it was before the fetch (R104). -/
  | haltedLoop
  /-- FaultInvalid: Invalid Instruction was raised (R140). -/
  | faultInvalid
  /-- FaultUnimplemented: Unimplemented Operation was raised (R139). -/
  | faultUnimplemented
  deriving DecidableEq, Repr

/-- The store's contents as plain data: (address, line) pairs with strictly rising addresses below 1024 and no pair
whose line is 0, which is what an unlisted address reads as (R39). The unit is the line (R36), not the byte: the
machine has no bytes (assumption log 4). -/
abbrev Memory := List (Nat × Line)

/-- The whole state of the block (R16). -/
structure State where
  /-- `A`, the accumulator (R18). -/
  a : Acc
  /-- `C`, the program counter: between cycles the address of the instruction last fetched, or the value a taken
  branch loaded (R19). -/
  c : Addr
  /-- `CIR`, the current-instruction register (R20). -/
  cir : Line
  /-- `M[0..1023]`, the Electronic Store's contents (R21). -/
  mem : Memory
  /-- `V[0..1023]`, the materialized bits (R22): the addresses whose bit is 1, strictly rising
  (DESIGN CHOICE, assumption log 14). -/
  mat : List Nat
  /-- `STATUS` (R23). -/
  status : Status
  /-- `FAULT_TEXT`, meaningful only when `STATUS` is FaultInvalid (R24). -/
  faultText : Line
  /-- `STEPS`, completed cycles since reset, unbounded (R25). -/
  steps : Nat
  deriving DecidableEq, Repr

/-- Why a step answers no state. The machine's own fatal faults are not here: they are values of `STATUS`, reached by a
next state (R143). -/
inductive Fault where
  /-- Raised by `step` alone, when `STATUS` is a terminal value: `Step` is not enabled and has no move (R109, R115). It
  is the stuck state of spec/93_implementation_defined.md U15, not a fault of the machine; safe (assumption log 7). -/
  | stuck (status : Status)
  deriving DecidableEq, Repr

/-- Why the model gives no meaning, or a host operation is refused. -/
inductive Refusal where
  /-- Raised by no arm of `exec`: every row of the opcode table has its meaning. The host's name; safe. -/
  | notModelled (mnemonic : String)
  /-- Malformed Field (R138): raised by the host's `set` and `load` for a text that is too long or has a character that
  is no glyph. The machine is unchanged by the refused `set`; safe, it is what the spec states. -/
  | malformedField
  /-- Raised by the host interface for an operation outside the window in which R58 offers it to the host; safe, the
  spec's treatment is to refuse (spec/93_implementation_defined.md U14). -/
  | outsideWindow
  /-- Raised by the host interface for a step of a block whose `load` was refused and which has not been reset: it is
  unfit to run (spec/93_implementation_defined.md U13); safe, the entry asks for the refusal (assumption log 9). -/
  | unfitToRun
  deriving DecidableEq, Repr

/-- `Reset` (R32, R159): A 0, C 1023, every line 0, no address materialized, Running, no step. The spec leaves CIR and
FAULT_TEXT unspecified; the model names 0 for both (DESIGN CHOICE, assumption log 1; unsafe). -/
def State.reset : State where
  a := 0
  c := 1023
  cir := 0
  mem := []
  mat := []
  status := .running
  faultText := 0
  steps := 0

end Sys2Proof.Machine
end

