-- ==== Sys2Proof/Machine/Ops.lean ====
section
/-!
DEFINITION. The named operations over the store and the registers, raising a fatal fault, and the two ends of a cycle
(spec/20_memory.md R35 to R54, spec/60_exceptions.md R143, spec/41_cycle_fetch_decode_run.md R97, R104, R106). There is
no return from a fault (R148), so none stands beside `State.raise`.
-/

namespace Sys2Proof.Machine

/-- "Addresses wrap modulo 1024" (R38): the address of line `i` of an access that starts at `base` is
`wrap (base + i)`. -/
def wrap (n : Nat) : Nat := n % 1024

/-- The line at an address; an unlisted address reads as the zero line (R39). -/
def Memory.read : Memory → Nat → Line
  | [], _ => 0
  | (b, w) :: m, x => if x = b then w else Memory.read m x

/-- Put a cell into its place in a list with rising addresses. -/
def Memory.insert (x : Nat) (v : Line) : Memory → Memory
  | [] => [(x, v)]
  | (b, w) :: m => if x < b then (x, v) :: (b, w) :: m else (b, w) :: Memory.insert x v m

/-- `M[x] <- v`, keeping the canonical form: the old cell goes, and a zero line is not listed. -/
def Memory.write (m : Memory) (x : Nat) (v : Line) : Memory :=
  let rest := m.filter fun cell => cell.1 != x
  if v = 0 then rest else Memory.insert x v rest

/-- The canonical form of memory: strictly rising addresses below 1024 (R35), no line equal to the zero line an
unlisted address reads as. -/
abbrev Memory.wf (m : Memory) : Prop :=
  m.Pairwise (fun p q => p.1 < q.1) ∧ ∀ p ∈ m, p.1 < 1024 ∧ p.2 ≠ 0

/-- `M[x]` (R21). -/
def State.read (s : State) (x : Nat) : Line := s.mem.read x

/-- `V[x]` (R22). -/
def State.isMat (s : State) (x : Nat) : Bool := s.mat.contains x

/-- `V[x] <- 1`: the address takes its place in the rising list, once. -/
def setMat : List Nat → Nat → List Nat
  | [], x => [x]
  | y :: v, x => if x < y then x :: y :: v else if x = y then y :: v else y :: setMat v x

/-- The canonical form of `V`: strictly rising addresses below 1024. -/
abbrev matWf (v : List Nat) : Prop := v.Pairwise (· < ·) ∧ ∀ x ∈ v, x < 1024

/-- `Materialize(x)` (R42): sets `V[x]`. The line already reads as the zero line when `V[x]` is 0 (R26), so the write of
0 that R42 keeps "to mirror the source" is left out (DEDUCED, assumption log 5). -/
def State.materialize (s : State) (x : Nat) : State := { s with mat := setMat s.mat x }

/-- One line of a write: `M[x] <- v; V[x] <- 1` (R44). -/
def State.writeLine (s : State) (x : Nat) (v : Line) : State :=
  { s with mem := s.mem.write x v, mat := setMat s.mat x }

/-- `MemRead(addr, n)` (R43): `n` consecutive lines, wrapping, each materialized, as one integer with the line at `addr`
least significant, and the state the reads leave. -/
def State.memRead (s : State) (addr : Nat) : Nat → Nat × State
  | 0 => (0, s)
  | n + 1 =>
    let x := wrap addr
    let r := (s.materialize x).memRead (addr + 1) n
    ((s.read x).toNat + 2 ^ 20 * r.1, r.2)

/-- `MemWrite(addr, n, v)` (R44): chunk `i` of `v` to address `(addr + i) mod 1024`, each materialized. -/
def State.memWrite (s : State) (addr : Nat) : Nat → Nat → State
  | 0, _ => s
  | n + 1, v => (s.writeLine (wrap addr) (BitVec.ofNat 20 v)).memWrite (addr + 1) n (v / 2 ^ 20)

/-- `A <- v`. -/
def State.setA (s : State) (v : Acc) : State := { s with a := v }

/-- `C <- v`. -/
def State.setC (s : State) (v : Addr) : State := { s with c := v }

/-- `CIR <- v`. -/
def State.setCir (s : State) (v : Line) : State := { s with cir := v }

/-- The two fatal faults `Step` can raise (R137). -/
inductive FatalFault where
  /-- Unimplemented Operation, which carries nothing (R139). -/
  | unimplementedOperation
  /-- Invalid Instruction, which carries the offending line (R140). -/
  | invalidInstruction (line : Line)
  deriving DecidableEq, Repr

/-- `raise` (R143): the one way into a fatal fault. It sets `STATUS`, records the line of an Invalid Instruction, and
changes nothing else: no handler, no saved register, no mode (R147). -/
def State.raise (s : State) : FatalFault → State
  | .unimplementedOperation => { s with status := .faultUnimplemented }
  | .invalidInstruction line => { s with status := .faultInvalid, faultText := line }

/-- Fetch (R97): increment `C` modulo 1024, then load `CIR` from the line at the new `C`. -/
def fetch (s : State) : State :=
  let s1 := s.setC (s.c + 1)
  let r := s1.memRead s1.c.toNat 1
  r.2.setCir (BitVec.ofNat 20 r.1)

/-- The end of a cycle (R102): a cycle that raised stops where it is; a completed one is counted (R106) and then the
halting-loop test compares `C` with its value `c0` before the fetch (R104). -/
def endCycle (c0 : Addr) (s : State) : State :=
  if s.status = .running then
    { s with steps := s.steps + 1, status := if s.c = c0 then .haltedLoop else .running }
  else s

end Sys2Proof.Machine
end

