-- ==== Sys2Proof/Machine/Operands.lean ====
section
/-!
DEFINITION. Every operand form of the instruction set (spec/30_encoding.md R67, R68, spec/20_memory.md R52): one line
read, a pair read, a pair written, none. There are no immediates. Each form answers the value and the state its access
leaves; an operation that does not use an operand does not read it (R101).
-/

namespace Sys2Proof.Machine

/-- `s_data` (R99): the line at `addr`. Used by CBA and UBR. -/
def sData (s : State) (addr : Addr) : Line × State :=
  let r := s.memRead addr.toNat 1
  (BitVec.ofNat 20 r.1, r.2)

/-- `s_pair_data` (R100): the pair at `addr`, the line at `addr` least significant. Used by LDA, ADD, SUB and DBL. -/
def sPairData (s : State) (addr : Addr) : Acc × State :=
  let r := s.memRead addr.toNat 2
  (BitVec.ofNat 40 r.1, r.2)

/-- The branch value `s_data[9:0]` (R116, R117). -/
def branchValue (l : Line) : Addr := l.extractLsb' 0 10

/-- The destination of STA: the pair at `addr` receives `v` (R120). -/
def storePair (s : State) (addr : Addr) (v : Acc) : State := s.memWrite addr.toNat 2 v.toNat

/-- `v[19:0]`, the low line of an accumulator value (R120). -/
def lowLine (v : Acc) : Line := v.extractLsb' 0 20

/-- `v[39:20]`, the high line of an accumulator value (R120). -/
def highLine (v : Acc) : Line := v.extractLsb' 20 20

end Sys2Proof.Machine
end

