-- ==== Sys2Proof/Machine/Arithmetic.lean ====
section
/-!
DEFINITION. Arithmetic: ADD, SUB, NEG and DBL, the execute arms of spec/44_arithmetic.md R124 to R127.
-/

namespace Sys2Proof.Machine

/-- ADD (R124): `A <- (A + s_pair_data) mod 2^40`. -/
def execAdd (addr : Addr) (s : State) : Host.Outcome State Fault Refusal :=
  let r := sPairData s addr
  .next (r.2.setA (accAdd s.a r.1))

/-- SUB (R125): `A <- (A - s_pair_data) mod 2^40`. -/
def execSub (addr : Addr) (s : State) : Host.Outcome State Fault Refusal :=
  let r := sPairData s addr
  .next (r.2.setA (accSub s.a r.1))

/-- NEG (R126): raises Unimplemented Operation, always; no operand is read and `A` does not change. -/
def execNeg (s : State) : Host.Outcome State Fault Refusal := .next (s.raise .unimplementedOperation)

/-- DBL (R127): `A <- (2 * s_pair_data) mod 2^40`; the old `A` is no operand. -/
def execDbl (addr : Addr) (s : State) : Host.Outcome State Fault Refusal :=
  let r := sPairData s addr
  .next (r.2.setA (accDouble r.1))

end Sys2Proof.Machine
end

