-- ==== Sys2Proof/Machine/Control.lean ====
section
/-!
DEFINITION. Control transfer: CBA and UBR, the execute arms of spec/42_control_transfer.md R116, R117. On entry `C` is
the address the instruction was fetched from.
-/

namespace Sys2Proof.Machine

/-- CBA (R116): the target line is read whether or not the branch is taken (R101); taken when bit 39 of `A` is 0. -/
def execCba (addr : Addr) (s : State) : Host.Outcome State Fault Refusal :=
  let r := sData s addr
  .next (if signBit s.a then r.2 else r.2.setC (branchValue r.1))

/-- UBR (R117): `C <- s_data[9:0]`. -/
def execUbr (addr : Addr) (s : State) : Host.Outcome State Fault Refusal :=
  let r := sData s addr
  .next (r.2.setC (branchValue r.1))

end Sys2Proof.Machine
end

