-- ==== Sys2Proof/Machine/NopInvalid.lean ====
section
/-!
DEFINITION. NOP and every unassigned code: the execute arms of spec/45_nop_and_invalid.md R133, R134. There are no
system instructions (R135).
-/

namespace Sys2Proof.Machine

/-- NOP (R133): "no state change". -/
def execNop (s : State) : Host.Outcome State Fault Refusal := .next s

/-- INVALID (R134): raises Invalid Instruction carrying `CIR`, the offending line as fetched. -/
def execInvalid (s : State) : Host.Outcome State Fault Refusal := .next (s.raise (.invalidInstruction s.cir))

end Sys2Proof.Machine
end

