-- ==== Sys2Proof/Machine/Transfer.lean ====
section
/-!
DEFINITION. Accumulator transfer: STA, LDA and CLR, the execute arms of spec/43_accumulator_transfer.md R120 to R122.
-/

namespace Sys2Proof.Machine

/-- STA (R120): `MemWrite(addr, 2, A)`, then `CIR <- A[19:0]`. -/
def execSta (addr : Addr) (s : State) : Host.Outcome State Fault Refusal :=
  .next ((storePair s addr s.a).setCir (lowLine s.a))

/-- LDA (R121): `A <- s_pair_data`. -/
def execLda (addr : Addr) (s : State) : Host.Outcome State Fault Refusal :=
  let r := sPairData s addr
  .next (r.2.setA r.1)

/-- CLR (R122): `A <- 0`; the address is ignored and nothing is read. -/
def execClr (s : State) : Host.Outcome State Fault Refusal := .next (s.setA 0)

end Sys2Proof.Machine
end

