-- ==== Sys2Proof/Machine/Dispatch.lean ====
section
/-!
DEFINITION. Execute (spec/41_cycle_fetch_decode_run.md R103): one arm per instruction, each one call of its meaning.
-/

namespace Sys2Proof.Machine

def exec (i : Instr) (s : State) : Host.Outcome State Fault Refusal :=
  match i with
  | .cba addr => Sys2Proof.Machine.execCba addr s
  | .ubr addr => Sys2Proof.Machine.execUbr addr s
  | .sta addr => Sys2Proof.Machine.execSta addr s
  | .lda addr => Sys2Proof.Machine.execLda addr s
  | .clr _ => Sys2Proof.Machine.execClr s
  | .add addr => Sys2Proof.Machine.execAdd addr s
  | .sub addr => Sys2Proof.Machine.execSub addr s
  | .neg _ => Sys2Proof.Machine.execNeg s
  | .dbl addr => Sys2Proof.Machine.execDbl addr s
  | .nop _ => Sys2Proof.Machine.execNop s
  | .invalid _ _ => Sys2Proof.Machine.execInvalid s

end Sys2Proof.Machine
end

