-- ==== Sys2Proof/Machine/Step.lean ====
section
/-!
DEFINITION. One cycle, `Step` (spec/41_cycle_fetch_decode_run.md R102): fetch, decode, execute, end of cycle; enabled only
while `STATUS` is Running (R115). Also the host's placing of an instruction where the next cycle fetches it.
-/

namespace Sys2Proof.Machine

/-- `Step` under any assignment of function codes (R102). -/
def stepWith (fc : FunctionCodes) (s : State) : Host.Outcome State Fault Refusal :=
  if s.status = .running then
    match exec (decode fc (fetch s).cir) (fetch s) with
    | .next t => .next (endCycle s.c t)
    | .fault r => .fault r
    | .refused r => .refused r
  else .fault (.stuck s.status)

/-- `Step` under FC_REF, the codes of spec/opcode_table.json (fixed name of the host; assumption log 2). -/
def step (s : State) : Host.Outcome State Fault Refusal := stepWith fcRef s

/-- `s` with an instruction stored where the next cycle fetches it, the line at `(C + 1) mod 1024`, as the host's `set`
stores a line (R46), and the engine Running, as a fetch needs (fixed name of the host; assumption log 8). -/
def State.withFetchWord (s : State) (nbits w : Nat) : State :=
  { s.writeLine (s.c + 1).toNat (tableLine nbits w) with status := .running }

end Sys2Proof.Machine
end

