-- ==== Sys2Proof/Machine/Codec.lean ====
section
/-!
DEFINITION. The Symbol Codec, base32_symbol_codec (spec/40_symbol_codec.md R77 to R95): pure functions between integers
and numerals, the validity predicate, and text under an alphabet.
-/

namespace Sys2Proof.Machine

/-- `DEC(s)`, the sum of `s[i] * 32^i` (R82): defined for any length, 0 for the empty numeral. With `enc10`, `enc20` and
`enc40` it obeys the round-trip laws of R88. -/
def dec : Numeral → Nat
  | [] => 0
  | x :: s => x.toNat + 32 * dec s

/-- `w` symbols of `n`, least significant first, by repeated division by 32 (R83). Only the widths 2, 4 and 8 are the
block's own (R83, assumption log 12). -/
def symbols : Nat → Nat → Numeral
  | 0, _ => []
  | w + 1, n => BitVec.ofNat 5 (n % 32) :: symbols w (n / 32)

/-- `ENC10`, the address encoder (R84, R87, R88). -/
def enc10 (n : Nat) : Numeral := symbols 2 (n % 2 ^ 10)

/-- `ENC20`, the line encoder (R85, R87, R88). -/
def enc20 (n : Nat) : Numeral := symbols 4 (n % 2 ^ 20)

/-- `ENC40`, the accumulator encoder, modulo 2^40 as spec/90_conflicts.md C2 decides (R86, R87, R88; decision D11,
assumption log 12). -/
def enc40 (n : Nat) : Numeral := symbols 8 (n % 2 ^ 40)

/-- Decoding by text (R65, R98): re-encode the line as four symbols, take the first two as the operand and match the
last two, symbol for symbol, against the text of each function code. -/
def decodeByText (fc : FunctionCodes) (l : Line) : Instr :=
  let text := enc20 l.toNat
  match Op.all.find? fun o => enc10 (fc.code o).toNat == text.drop 2 with
  | some op => op.instr (BitVec.ofNat 10 (dec (text.take 2)))
  | none => .invalid (BitVec.ofNat 10 (dec (text.take 2))) (BitVec.ofNat 10 (dec (text.drop 2)))

/-- ALPHABET_REF, the reference alphabet of R79 (PRESUMED: the spec marks it as general knowledge; assumption log 3). -/
def alphabetRef : Alphabet where
  glyphs :=
    ['/', 'E', '@', 'A', ':', 'S', 'I', 'U', '½', 'D', 'R', 'J', 'N', 'F', 'C', 'K',
      'T', 'Z', 'L', 'W', 'H', 'Y', 'P', 'Q', 'O', 'B', 'G', '\x22', 'M', 'X', 'V', '£']
  complete := by decide
  distinct := by decide

/-- The glyph of a symbol. -/
def glyphOf (al : Alphabet) (x : Symbol) : Char :=
  al.glyphs[x.toNat]'(by rw [al.complete]; exact x.isLt)

/-- The symbol a character stands for; `none` when it is no glyph. -/
def valueOf (al : Alphabet) (ch : Char) : Option Symbol :=
  (al.glyphs.idxOf? ch).map (BitVec.ofNat 5)

/-- Text of a numeral, leftmost character least significant (R93). -/
def printText (al : Alphabet) (s : Numeral) : List Char := s.map (glyphOf al)

/-- Numeral of a text; `none` when a character is no glyph (R93). -/
def parseText (al : Alphabet) : List Char → Option Numeral
  | [] => some []
  | ch :: t =>
    match valueOf al ch, parseText al t with
    | some x, some s => some (x :: s)
    | _, _ => none

/-- `Valid(s, L)` on text (R89): at most `L` characters, each a glyph. -/
def validText (al : Alphabet) (maxLen : Nat) (t : List Char) : Bool :=
  decide (t.length ≤ maxLen) && t.all fun ch => al.glyphs.contains ch

/-- A field of text as a numeral; `none` is Malformed Field, "never silently coerced" (R90). -/
def readField (al : Alphabet) (maxLen : Nat) (t : List Char) : Option Numeral :=
  if validText al maxLen t then parseText al t else none

end Sys2Proof.Machine
end

