-- ==== Sys2Proof/Machine/HostOps.lean ====
section
/-!
DEFINITION. The host's operations on the store (spec/20_memory.md R45 to R50): `get` in its two forms, `set`, `load` and
`dump`, and the windows in which R58 offers them.
-/

namespace Sys2Proof.Machine

/-- `get_int(address, count)` (R45): `MemRead`. -/
def getInt (s : State) (addr count : Nat) : Nat × State := s.memRead addr count

/-- `get_text(address, count)` (R45): the concatenation of the `count` lines' numerals, lower address first, each line
materialized. -/
def getText (s : State) (addr : Nat) : Nat → Numeral × State
  | 0 => ([], s)
  | count + 1 =>
    let x := wrap addr
    let r := getText (s.materialize x) (addr + 1) count
    (enc20 (s.read x).toNat ++ r.1, r.2)

/-- A chunk padded on the right with the zero symbol to a full line (R46). -/
def padLine (chunk : Numeral) : Numeral := chunk ++ List.replicate (4 - chunk.length) 0

/-- The writes of `set` (R46): `k` chunks of four symbols, chunk `i` to address `(base + i) mod 1024`. -/
def writeChunks (s : State) (base : Nat) : Nat → Numeral → State
  | 0, _ => s
  | k + 1, value =>
    writeChunks (s.writeLine (wrap base) (BitVec.ofNat 20 (dec (padLine (value.take 4))))) (base + 1) k (value.drop 4)

/-- `set` after validation (R46): `ceil(len / 4)` chunks from `DEC(address)`; none for the empty value (R48). -/
def setNumeral (s : State) (address value : Numeral) : State :=
  writeChunks s (dec address) ((value.length + 3) / 4) value

/-- `set(address, value)` on text (R46): both fields are checked before anything is written (R47); at most 2 symbols of
address and 8 of value. -/
def setText (al : Alphabet) (address value : List Char) (s : State) : Host.Outcome State Fault Refusal :=
  match readField al 2 address, readField al 8 value with
  | some x, some v => .next (setNumeral s x v)
  | _, _ => .refused .malformedField

/-- `load(pairs)` (R49): `set` for each pair in sequence, stopping at the first refused pair. Answers the state the pairs
before it leave, and the refusal if there was one. -/
def loadPairs (al : Alphabet) : List (List Char × List Char) → State → State × Option Refusal
  | [], s => (s, none)
  | (address, value) :: rest, s =>
    match setText al address value s with
    | .next t => loadPairs al rest t
    | .refused r => (s, some r)
    | .fault _ => (s, some .malformedField)

/-- `dump()` (R50): the SET of pairs `(x, ENC20(M[x]))` of the materialized addresses; no order is fixed, since a `Finset`
has none (DESIGN CHOICE, assumption log 15). It changes no state. -/
def dump (s : State) : Finset (Nat × Numeral) :=
  (s.mat.map fun x => (x, enc20 (s.read x).toNat)).toFinset

/-- The window of `set` and `load`: between `Reset` and the first `Step` (R58). A cycle either counts in `STEPS` or leaves
`STATUS` terminal, so the state shows it (R106, R143). -/
def beforeFirstStep (s : State) : Bool := decide (s.status = .running) && s.steps == 0

/-- The run loop may start another cycle (R107): Running and, unless `maxSteps` is 0, `STEPS` below it (since `Reset`, as
R107's loop tests it; a bound on one call, R156's, is this one counted from the `STEPS` of the call, assumption log 19). -/
def mayStep (maxSteps : Nat) (s : State) : Bool :=
  decide (s.status = .running) && (maxSteps == 0 || decide (s.steps < maxSteps))

/-- The window of the host's `get`: before the first `Step` or after the run has ended (R58, R113). -/
def getWindow (maxSteps : Nat) (s : State) : Bool := beforeFirstStep s || !mayStep maxSteps s

end Sys2Proof.Machine
end

