-- ==== Sys2Proof/Machine/Observe.lean ====
section
/-!
DEFINITION. What the host sees: the step record (spec/41_cycle_fetch_decode_run.md R110), the snapshot (R111), the end of a
run (R113) and the final report (spec/60_exceptions.md R150). All are outputs; none changes the state.
-/

namespace Sys2Proof.Machine

/-- The record of one completed cycle (R110). -/
structure StepRecord where
  /-- `STEPS` before the increment: 0 for the first cycle -/
  step : Nat
  /-- `ENC10` of `C` after fetch -/
  address : Numeral
  /-- `ENC20` of `CIR` as fetch loaded it -/
  instructionText : Numeral
  /-- `ENC40` of `A` after execute -/
  accumulatorText : Numeral
  /-- present only for STA: `ENC10(addr)` -/
  changedAddress : Option Numeral
  /-- present only for STA: `ENC40(A)` -/
  changedValue : Option Numeral
  deriving DecidableEq, Repr

/-- The address STA stores to; no other instruction stores (R136). -/
def storeAddr : Instr → Option Addr
  | .sta addr => some addr
  | .cba _ | .ubr _ | .lda _ | .clr _ | .add _ | .sub _ | .neg _ | .dbl _ | .nop _ | .invalid _ _ => none

/-- The step record of the cycle that starts at `s`; `none` when no cycle starts or the cycle faults (R110, R143). -/
def stepRecord (fc : FunctionCodes) (s : State) : Option StepRecord :=
  let f := fetch s
  match stepWith fc s with
  | .next t =>
    if t.status = .running ∨ t.status = .haltedLoop then
      some
        { step := s.steps
          address := enc10 f.c.toNat
          instructionText := enc20 f.cir.toNat
          accumulatorText := enc40 t.a.toNat
          changedAddress := (storeAddr (decode fc f.cir)).map fun x => enc10 x.toNat
          changedValue := (storeAddr (decode fc f.cir)).map fun _ => enc40 t.a.toNat }
    else none
  | .fault _ => none
  | .refused _ => none

/-- The snapshot at a cycle boundary: `dump` labelled with `STEPS` (R111). -/
def snapshot (s : State) : Nat × Finset (Nat × Numeral) := (s.steps, dump s)

/-- The four ways a run ends (R113). -/
inductive RunEnd where
  /-- a completed cycle left `C` as it was before the fetch -/
  | normalHalt
  /-- a fetched line decoded to INVALID; carries `ENC20(FAULT_TEXT)` -/
  | invalidInstruction (text : Numeral)
  /-- a fetched line decoded to NEG -/
  | unimplementedOperation
  /-- `STEPS` reached the bound with `STATUS` still Running -/
  | stepBound
  deriving DecidableEq, Repr

/-- How a run with bound `maxSteps` has ended at `s`; `none` while it may go on (R107, R113). -/
def runEnd (maxSteps : Nat) (s : State) : Option RunEnd :=
  match s.status with
  | .haltedLoop => some .normalHalt
  | .faultInvalid => some (.invalidInstruction (enc20 s.faultText.toNat))
  | .faultUnimplemented => some .unimplementedOperation
  | .running => if mayStep maxSteps s then none else some .stepBound

/-- The final report (R150): how the run ended, together with `STEPS`. -/
structure FinalReport where
  /-- `STATUS` -/
  status : Status
  /-- `ENC20(FAULT_TEXT)`, present only when `STATUS` is FaultInvalid -/
  faultText : Option Numeral
  /-- `STEPS` -/
  steps : Nat
  deriving DecidableEq, Repr

/-- The report the host reads after `Run` returns (R150). -/
def finalReport (s : State) : FinalReport where
  status := s.status
  faultText := if s.status = .faultInvalid then some (enc20 s.faultText.toNat) else none
  steps := s.steps

end Sys2Proof.Machine
end

