-- ==== Sys2Proof/Machine/Run.lean ====
section
/-!
DEFINITION. The run loop (spec/41_cycle_fetch_decode_run.md R107 to R109) and the block's whole interface as one function
of an operation and a state (spec/00_scope.md R5 to R7, spec/20_memory.md R58).
-/

namespace Sys2Proof.Machine

/-- `Run(maxSteps)` (R107), at most `fuel` cycles of it: step while the run may go on (the fuel is the
model's, DESIGN CHOICE, assumption log 16). -/
def runFor (fc : FunctionCodes) (maxSteps : Nat) : Nat → State → State
  | 0, s => s
  | fuel + 1, s =>
    if mayStep maxSteps s then
      match stepWith fc s with
      | .next t => runFor fc maxSteps fuel t
      | .fault _ => s
      | .refused _ => s
    else s

/-- `Run(n)` for a bound `n > 0`, as R107's loop writes it: at most `n - STEPS` cycles can start. The bound is on `STEPS`, the
cycles since `Reset`, so a second `Run(1)` of this loop runs no cycle; `runCall` is the `Run` whose bound is on the cycles of
the call, as R156 uses it (that the model has the two apart is DESIGN CHOICE, assumption log 19). -/
def runBounded (fc : FunctionCodes) (n : Nat) (s : State) : State := runFor fc n (n - s.steps) s

/-- `Run(n)` for a bound `n > 0` on the cycles of this call, as R156 uses it: at most `n` cycles from `s`, so that `Run(1)`
repeated single-steps. It is R107's loop with the bound counted from the `STEPS` the call starts at, and from `Reset`, where
`STEPS` is 0, it is `runBounded` (assumption log 19). -/
def runCall (fc : FunctionCodes) (n : Nat) (s : State) : State := runBounded fc (s.steps + n) s

/-- `Run(maxSteps)` started at `s` ends at `t`, for every bound, 0 included: a run with no bound may end nowhere (R113). -/
def RunEndsAt (fc : FunctionCodes) (maxSteps : Nat) (s t : State) : Prop :=
  ∃ fuel, runFor fc maxSteps fuel s = t ∧ mayStep maxSteps t = false

/-- The step records of at most `fuel` cycles of a run, in order (R110). -/
def runTrace (fc : FunctionCodes) (maxSteps : Nat) : Nat → State → List StepRecord
  | 0, _ => []
  | fuel + 1, s =>
    if mayStep maxSteps s then
      match stepWith fc s with
      | .next t => (stepRecord fc s).toList ++ runTrace fc maxSteps fuel t
      | .fault _ => []
      | .refused _ => []
    else []

/-- The operations of the block (R6, R7). `Run` is the host's repetition of `step` (R107), and `step` is its single step
(R156). -/
inductive HostOp where
  /-- `Reset` (R159) -/
  | reset
  /-- `set(address, value)` (R46) -/
  | set (address value : List Char)
  /-- `load(pairs)` (R49) -/
  | load (pairs : List (List Char × List Char))
  /-- `get_text(address, count)` (R45) -/
  | getText (addr count : Nat)
  /-- `get_int(address, count)` (R45) -/
  | getInt (addr count : Nat)
  /-- `dump()` (R50) -/
  | dump
  /-- one cycle of the run loop (R102, R107) -/
  | step
  deriving DecidableEq, Repr

/-- The step records of a `runCall`, in order (R110, R156). -/
def runCallTrace (fc : FunctionCodes) (n : Nat) (s : State) : List StepRecord := runTrace fc (s.steps + n) n s

/-- What an operation gives back. -/
inductive Output where
  /-- done, nothing to give -/
  | done
  /-- the lines of `get_text` -/
  | text (s : Numeral)
  /-- the value of `get_int` -/
  | int (n : Nat)
  /-- the set of `dump` -/
  | dumped (d : Finset (Nat × Numeral))
  /-- a cycle ran: its step record, none when it faulted -/
  | cycle (record : Option StepRecord)
  /-- the operation was refused -/
  | refused (r : Refusal)
  /-- `Step` has no move -/
  | stuck (f : Fault)

/-- The block as the host drives it: the machine's state, which is all of R16, and one note of the host interface. The note
is the model's own and no item of R16 (DESIGN CHOICE, safe, assumption log 20): spec/93_implementation_defined.md U13 asks that a
machine whose `load` was refused be not stepped, which no item of R16 shows. -/
structure Block where
  /-- the machine -/
  state : State
  /-- a `load` was refused since the last `Reset` -/
  loadRefused : Bool
  deriving DecidableEq, Repr

/-- The block after `Reset` (R159). -/
def Block.reset : Block := ⟨.reset, false⟩

/-- A block with what the operation gave back. -/
structure Response where
  /-- the block afterwards -/
  block : Block
  /-- the output -/
  output : Output

/-- The response to a `load` in its window (R49): a refused one keeps the pairs before the refused one and makes the block
unfit to run (U13, assumption log 9); a later accepted one does not make it fit again (assumption log 20). -/
def loadResponse (al : Alphabet) (pairs : List (List Char × List Char)) (b : Block) : Response :=
  match loadPairs al pairs b.state with
  | (t, none) => ⟨{ b with state := t }, .done⟩
  | (t, some r) => ⟨⟨t, true⟩, .refused r⟩

/-- One operation of the block: each is atomic (R6), and each is offered to the host in its window only (R58); `Reset` and
`dump` are always offered (R159, R58). A refused `set` changes nothing (R47). A step is refused while the block is unfit to
run (U13). -/
def hostApply (p : Params) (op : HostOp) (b : Block) : Response :=
  match op with
  | .reset => ⟨.reset, .done⟩
  | .set address value =>
    if beforeFirstStep b.state then
      match setText p.alphabet address value b.state with
      | .next t => ⟨{ b with state := t }, .done⟩
      | .refused r => ⟨b, .refused r⟩
      | .fault f => ⟨b, .stuck f⟩
    else ⟨b, .refused .outsideWindow⟩
  | .load pairs =>
    if beforeFirstStep b.state then loadResponse p.alphabet pairs b else ⟨b, .refused .outsideWindow⟩
  | .getText addr count =>
    if getWindow p.maxSteps b.state then
      let r := Sys2Proof.Machine.getText b.state addr count
      ⟨{ b with state := r.2 }, .text r.1⟩
    else ⟨b, .refused .outsideWindow⟩
  | .getInt addr count =>
    if getWindow p.maxSteps b.state then
      let r := Sys2Proof.Machine.getInt b.state addr count
      ⟨{ b with state := r.2 }, .int r.1⟩
    else ⟨b, .refused .outsideWindow⟩
  | .dump => ⟨b, .dumped (Sys2Proof.Machine.dump b.state)⟩
  | .step =>
    if b.loadRefused then ⟨b, .refused .unfitToRun⟩
    else
      match stepWith p.fc b.state with
      | .next t => ⟨{ b with state := t }, .cycle (stepRecord p.fc b.state)⟩
      | .fault f => ⟨b, .stuck f⟩
      | .refused r => ⟨b, .refused r⟩

/-- Booting (R162): `Reset`, `load`, then `Run`, at most `fuel` cycles. A machine whose `load` was refused is unfit to run
and is not stepped (U13). -/
def bootAndRun (p : Params) (pairs : List (List Char × List Char)) (fuel : Nat) : Response :=
  match loadPairs p.alphabet pairs .reset with
  | (t, none) => ⟨⟨runFor p.fc p.maxSteps fuel t, false⟩, .done⟩
  | (t, some r) => ⟨⟨t, true⟩, .refused r⟩

end Sys2Proof.Machine
end

