-- ==== Sys2Proof/Safety.lean ====
section
/-!
DEFINITION. The terms in which statements about the machine are made: the invariants of spec/10_state.md R26, the
safe states of a run, and the words a frame is said in.
-/

namespace Sys2Proof.Machine

/-- The store's invariant at every boundary (R26): `M` and `V` in their canonical forms, and an address that is not
materialized holds the zero line. -/
structure StoreInv (s : State) : Prop where
  /-- the canonical form of `M` -/
  memWf : s.mem.wf
  /-- the canonical form of `V` -/
  matRising : matWf s.mat
  /-- `V[x] = 0` implies `M[x] = 0` -/
  zeroUnlessMat : ∀ x, s.isMat x = false → s.read x = 0

/-- The line at `C` was fetched and is still there, materialized: what a fatal fault leaves (R143). -/
def FetchedAtC (s : State) : Prop := s.read s.c.toNat = s.cir ∧ s.isMat s.c.toNat = true

/-- The instruction in `CIR` is a branch that was taken to the value now in `C` (R26, R105): UBR, or CBA with bit 39 of `A`
clear, whose target line holds `C` in its low ten bits. -/
def HaltedAtBranch (fc : FunctionCodes) (s : State) : Prop :=
  ∃ x, (decode fc s.cir = .ubr x ∨ (decode fc s.cir = .cba x ∧ signBit s.a = false)) ∧
    branchValue (s.read x.toNat) = s.c

/-- The invariant of the machine under codes `fc`: the store's, and what each terminal value of `STATUS` says about the cycle
that reached it (R26, R105, R143). -/
structure Inv (fc : FunctionCodes) (s : State) : Prop where
  /-- the store -/
  store : StoreInv s
  /-- HaltedLoop: the last completed cycle was a taken branch -/
  halted : s.status = .haltedLoop → 0 < s.steps ∧ HaltedAtBranch fc s
  /-- FaultInvalid: `CIR` is the offending line, recorded in `FAULT_TEXT` -/
  invalid : s.status = .faultInvalid →
    s.faultText = s.cir ∧ FetchedAtC s ∧ decodeFC fc (lineFc s.cir) = none
  /-- FaultUnimplemented: `CIR` is a NEG line -/
  unimplemented : s.status = .faultUnimplemented →
    FetchedAtC s ∧ decodeFC fc (lineFc s.cir) = some .neg

/-- No fatal fault has been raised: the safe states of a run, and those a completed cycle leaves (R96). -/
def FaultFree (s : State) : Prop := s.status = .running ∨ s.status = .haltedLoop

/-- `t` has the materialized bits of `s` with those of `xs` set, and no other (R40). -/
def MatAdds (s t : State) (xs : List Nat) : Prop :=
  ∀ x, t.isMat x = true ↔ s.isMat x = true ∨ x ∈ xs

/-- Every line of the store reads as before. -/
def SameStore (s t : State) : Prop := ∀ x, t.read x = s.read x

/-- `STATUS`, `FAULT_TEXT` and `STEPS` are unchanged: no operation touches them except by raising (R103). -/
def SameEngine (s t : State) : Prop := t.status = s.status ∧ t.faultText = s.faultText ∧ t.steps = s.steps

/-- The address after `addr`, modulo 1024 (R38). -/
def nextAddr (addr : Addr) : Nat := (addr.toNat + 1) % 1024

/-- The value of the pair at `addr` (R37): `M[addr] + 2^20 * M[(addr + 1) mod 1024]`. -/
def pairAt (s : State) (addr : Addr) : Nat := (s.read addr.toNat).toNat + 2 ^ 20 * (s.read (nextAddr addr)).toNat

end Sys2Proof.Machine
end

