-- ==== Sys2Proof/Certificates/Slice0/Obligations.lean ====
section
/-!
DEFINITION. The statements for the provers. Each docstring names the rule of spec/ it formalises. Where a statement rests on
a decision or an inference the spec marks as its own, or on an entry of the assumption log, the docstring says which.
-/

open Sys2Proof Sys2Proof.Machine

/-! ## Encoding and decoding -/

/-- Decoding the line of any well-formed instruction gives it back, under any function codes, with every operand at every
value (spec/30_encoding.md section 6, an inference the spec marks as its own). -/
def Obligations.DecodeEncodeRoundTrip : Prop :=
  ∀ (fc : FunctionCodes) (i : Instr), i.wf fc = true → decode fc (encode fc i) = i

/-- Every line decodes to a well-formed instruction whose own line it is, so decoding is total and drops no bit (sections 2
and 3 of spec/30_encoding.md; the totality is the catch-all INVALID). -/
def Obligations.EncodeDecodeRoundTrip : Prop :=
  ∀ (fc : FunctionCodes) (l : Line), (decode fc l).wf fc = true ∧ encode fc (decode fc l) = l

/-- Decoding by text, as the source words it, and decoding by bits are the same function (spec/30_encoding.md section 3, an
inference the spec marks as its own). -/
def Obligations.DecodeByTextIsDecodeByBits : Prop :=
  ∀ (fc : FunctionCodes) (l : Line), decodeByText fc l = decode fc l

/-- R62: the two fields of a line, by value and by symbol. -/
def Obligations.LineFields : Prop :=
  ∀ l : Line,
    (lineAddr l).toNat = l.toNat % 1024 ∧ (lineFc l).toNat = l.toNat / 1024 ∧
      l.toNat = (lineAddr l).toNat + 1024 * (lineFc l).toNat ∧
      (enc20 l.toNat).take 2 = enc10 (lineAddr l).toNat ∧ (enc20 l.toNat).drop 2 = enc10 (lineFc l).toNat ∧
      (enc20 l.toNat)[2]? = some ((lineFc l).extractLsb' 0 5) ∧ (enc20 l.toNat)[3]? = some ((lineFc l).extractLsb' 5 5)

/-- R66: a function code is matched exactly; it names an operation just when it is that operation's code, and is INVALID
just when it is no operation's. -/
def Obligations.FunctionCodeMatchedExactly : Prop :=
  ∀ (fc : FunctionCodes) (c : FnCode),
    (∀ o, decodeFC fc c = some o ↔ fc.code o = c) ∧ (decodeFC fc c = none ↔ ∀ o, fc.code o ≠ c)

/-- Of the 1024 function codes, 1014 are INVALID, whatever the ten codes are (spec/30_encoding.md sections 2 and 5; that the
ten are distinct is the spec's decision D3, assumption log 2). -/
def Obligations.UnassignedCodesAreManyAndInvalid : Prop :=
  ∀ fc : FunctionCodes,
    ((Finset.range 1024).filter fun n => decodeFC fc (BitVec.ofNat 10 n) = none).card = 1014

/-- Words written out in spec/95_test_vectors.md section 4 decode as its table says, under FC_REF (the spec's reference
codes, decision D3, assumption log 2). -/
def Obligations.ReferenceWordsDecode : Prop :=
  decode fcRef 0xA0064 = .cba 100 ∧ decode fcRef 0xB03FF = .ubr 1023 ∧ decode fcRef 0x280C8 = .sta 200 ∧
    decode fcRef 0x0412C = .lda 300 ∧ decode fcRef 0x24309 = .clr 777 ∧ decode fcRef 0x3412C = .add 300 ∧
    decode fcRef 0x6412C = .sub 300 ∧ decode fcRef 0x6C12C = .neg 300 ∧ decode fcRef 0x7C12C = .dbl 300 ∧
    decode fcRef 0xFFD2C = .nop 300 ∧ decode fcRef 0x00000 = .invalid 0 0 ∧ decode fcRef 0x84005 = .invalid 5 528

/-- The reference function codes and their texts, as the table of spec/30_encoding.md section 2 lists them (FC_REF and
ALPHABET_REF are the spec's reference values, nine of the codes and the glyphs from general knowledge and NOP's code a
placeholder; assumption log 2 and 3). -/
def Obligations.ReferenceCodesAndTexts : Prop :=
  Op.all.map (fun o => ((fcRef.code o).toNat, printText alphabetRef (enc10 (fcRef.code o).toNat))) =
    [(640, ['/', 'H']), (704, ['/', 'P']), (160, ['/', 'S']), (16, ['T', '/']), (144, ['T', ':']), (208, ['T', 'I']),
      (400, ['T', 'N']), (432, ['T', 'F']), (496, ['T', 'K']), (1023, ['£', '£'])]

/-! ## The Symbol Codec -/

/-- R82: the positional sum, for a numeral of any length. -/
def Obligations.DecIsPositional : Prop :=
  (∀ s : Numeral, dec s = ∑ i ∈ Finset.range s.length, (s.getD i 0).toNat * 32 ^ i ∧
    dec (s ++ [0]) = dec s ∧ dec s < 32 ^ s.length) ∧
  dec [] = 0 ∧ dec [1, 0, 0, 22] = 720897

/-- The round-trip laws at the three hardware widths (spec/40_symbol_codec.md section 5). At width 40 they depart from the law
the source states, by the spec's decision D11 (assumption log 12, DEDUCED). -/
def Obligations.CodecRoundTrips : Prop :=
  (∀ n : Nat, dec (enc10 n) = n % 2 ^ 10 ∧ dec (enc20 n) = n % 2 ^ 20 ∧ dec (enc40 n) = n % 2 ^ 40 ∧
    (n < 2 ^ 10 → dec (enc10 n) = n) ∧ (n < 2 ^ 20 → dec (enc20 n) = n) ∧ (n < 2 ^ 40 → dec (enc40 n) = n) ∧
    (enc10 n).length = 2 ∧ (enc20 n).length = 4 ∧ (enc40 n).length = 8) ∧
  ∀ s : Numeral, (s.length = 2 → enc10 (dec s) = s) ∧ (s.length = 4 → enc20 (dec s) = s) ∧
    (s.length = 8 → enc40 (dec s) = s)

/-- The 8-symbol text of an accumulator value is the texts of its two lines, low line first (spec/40_symbol_codec.md section
4; the 40-bit modulus is the spec's decision D11, assumption log 12). -/
def Obligations.AccumulatorTextIsTwoLines : Prop :=
  ∀ n : Nat, enc40 n = enc20 (n % 2 ^ 20) ++ enc20 (n / 2 ^ 20 % 2 ^ 20)

/-- Text and numerals, under any alphabet: printing then parsing gives the numeral, and a text that parses is the printing of
what it parses to (spec/40_symbol_codec.md section 5, an inference the spec marks as its own). -/
def Obligations.TextRoundTrips : Prop :=
  ∀ al : Alphabet, (∀ s : Numeral, parseText al (printText al s) = some s) ∧
    ∀ (t : List Char) (s : Numeral), parseText al t = some s → printText al s = t

/-- R89: the validity predicate on text; shorter strings and the empty one are valid, and a printed numeral can fail by its
length only. -/
def Obligations.ValidityOfText : Prop :=
  ∀ (al : Alphabet) (maxLen : Nat),
    (∀ t : List Char, validText al maxLen t = true ↔ t.length ≤ maxLen ∧ ∀ ch ∈ t, ch ∈ al.glyphs) ∧
    (∀ t : List Char, (readField al maxLen t).isSome = validText al maxLen t) ∧
    validText al maxLen [] = true ∧
    ∀ s : Numeral, validText al maxLen (printText al s) = true ↔ s.length ≤ maxLen

/-! ## The Electronic Store -/

/-- R43: `MemRead` of any number of lines, in states that meet the store's invariant (R26; the invariant is stated kept
below). -/
def Obligations.MemReadValueAndEffect : Prop :=
  ∀ (s : State) (addr n : Nat), StoreInv s →
    (s.memRead addr n).1 = ∑ i ∈ Finset.range n, (s.read ((addr + i) % 1024)).toNat * 2 ^ (20 * i) ∧
    (s.memRead addr n).1 < 2 ^ (20 * n) ∧
    MatAdds s (s.memRead addr n).2 ((List.range n).map fun i => (addr + i) % 1024) ∧
    SameStore s (s.memRead addr n).2 ∧ SameEngine s (s.memRead addr n).2 ∧
    (s.memRead addr n).2.a = s.a ∧ (s.memRead addr n).2.c = s.c ∧ (s.memRead addr n).2.cir = s.cir

/-- R44: `MemWrite` of any number of lines: each line of the access holds the last chunk written to it, every other line
reads as before, and the lines written are materialized. -/
def Obligations.MemWriteEffect : Prop :=
  ∀ (s : State) (addr n v : Nat), v < 2 ^ (20 * n) →
    (∀ i, i < n → (∀ j, i < j → j < n → (addr + j) % 1024 ≠ (addr + i) % 1024) →
      ((s.memWrite addr n v).read ((addr + i) % 1024)).toNat = v / 2 ^ (20 * i) % 2 ^ 20) ∧
    (∀ x, (∀ i, i < n → x ≠ (addr + i) % 1024) → (s.memWrite addr n v).read x = s.read x) ∧
    MatAdds s (s.memWrite addr n v) ((List.range n).map fun i => (addr + i) % 1024) ∧
    SameEngine s (s.memWrite addr n v) ∧
    (s.memWrite addr n v).a = s.a ∧ (s.memWrite addr n v).c = s.c ∧ (s.memWrite addr n v).cir = s.cir

/-- A value written to consecutive lines reads back whole, from any base, wrapping included, as long as the access does not
meet itself (spec/20_memory.md section 7: a read returns the most recent write). -/
def Obligations.WriteThenReadGivesTheValue : Prop :=
  ∀ (s : State) (addr n v : Nat), n ≤ 1024 → v < 2 ^ (20 * n) →
    ((s.memWrite addr n v).memRead addr n).1 = v

/-- R42: materializing is what the source's step does, in states that meet the store's invariant; the model leaves out the
write of 0 (assumption log 5). -/
def Obligations.MaterializeIsTheSourcesStep : Prop :=
  ∀ (s : State) (x : Nat), StoreInv s → x < 1024 →
    s.materialize x =
      if s.isMat x = true then s else { s with mem := s.mem.write x 0, mat := setMat s.mat x }

/-- Two canonical memories that read alike at every address are equal data (the model's own form of the dense view of
spec/20_memory.md section 2; assumption log 4). -/
def Obligations.MemoriesThatReadAlikeAreEqual : Prop :=
  ∀ m m' : Memory, m.wf → m'.wf → (∀ x, x < 1024 → m.read x = m'.read x) → m = m'

/-! ## The host's operations -/

/-- What `set` writes, by the length of the value (spec/20_memory.md section 4; the row for length 0 is the spec's decision
D8, assumption log 9). -/
def Obligations.SetWritesByLength : Prop :=
  ∀ (s : State) (address value : Numeral), address.length ≤ 2 → value.length ≤ 8 →
    let base := dec address
    let t := setNumeral s address value
    base < 1024 ∧
    (value.length = 0 → t = s) ∧
    (1 ≤ value.length → value.length ≤ 4 →
      (t.read base).toNat = dec value ∧ (∀ x, x ≠ base → t.read x = s.read x) ∧ MatAdds s t [base]) ∧
    (5 ≤ value.length →
      (t.read base).toNat = dec value % 2 ^ 20 ∧ (t.read ((base + 1) % 1024)).toNat = dec value / 2 ^ 20 ∧
      (∀ x, x ≠ base → x ≠ (base + 1) % 1024 → t.read x = s.read x) ∧ MatAdds s t [base, (base + 1) % 1024]) ∧
    SameEngine s t ∧ t.a = s.a ∧ t.c = s.c ∧ t.cir = s.cir

/-- R47: a `set` the host may make is done when both fields are valid, and otherwise is refused as Malformed Field with
nothing changed. -/
def Obligations.SetIsAllOrNothing : Prop :=
  ∀ (p : Params) (address value : List Char) (b : Block), beforeFirstStep b.state = true →
    (validText p.alphabet 2 address = true → validText p.alphabet 8 value = true →
      ∃ x v, parseText p.alphabet address = some x ∧ parseText p.alphabet value = some v ∧
        hostApply p (.set address value) b = ⟨{ b with state := setNumeral b.state x v }, .done⟩) ∧
    (validText p.alphabet 2 address = false ∨ validText p.alphabet 8 value = false →
      hostApply p (.set address value) b = ⟨b, .refused .malformedField⟩)

/-- `load` is `set` for each pair in order: no pair changes nothing, an accepted pair is `set` and the rest is loaded after it,
and a refused pair ends the load with the pairs before it kept and that refusal reported (spec/20_memory.md section 4; the
stopping is the spec's decision D9, assumption log 9). In its window the host's `load` is exactly this. -/
def Obligations.LoadStopsAtTheFirstRefusedPair : Prop :=
  (∀ (al : Alphabet) (s : State), loadPairs al [] s = (s, none)) ∧
  (∀ (al : Alphabet) (address value : List Char) (rest : List (List Char × List Char)) (s : State),
    (∀ t, setText al address value s = .next t → loadPairs al ((address, value) :: rest) s = loadPairs al rest t) ∧
    (∀ r, setText al address value s = .refused r → loadPairs al ((address, value) :: rest) s = (s, some r)) ∧
    ((∃ t, setText al address value s = .next t) ∨ setText al address value s = .refused .malformedField)) ∧
  (∀ (al : Alphabet) (good rest : List (List Char × List Char)) (address value : List Char) (s t : State),
    loadPairs al good s = (t, none) →
    loadPairs al (good ++ rest) s = loadPairs al rest t ∧
    (∀ r, setText al address value t = .refused r → loadPairs al (good ++ (address, value) :: rest) s = (t, some r))) ∧
  ∀ (p : Params) (pairs : List (List Char × List Char)) (b : Block), beforeFirstStep b.state = true →
    (∀ t, loadPairs p.alphabet pairs b.state = (t, none) →
      hostApply p (.load pairs) b = ⟨{ b with state := t }, .done⟩) ∧
    ∀ t r, loadPairs p.alphabet pairs b.state = (t, some r) → hostApply p (.load pairs) b = ⟨⟨t, true⟩, .refused r⟩

/-- The two forms of `get`: the text is the concatenation of the lines' numerals, lower address first and wrapping, four
symbols a line; the integer is `MemRead` and is the value of the text; both materialize the same lines (spec/20_memory.md
section 4). -/
def Obligations.GetTextDecodesToGetInt : Prop :=
  ∀ (s : State) (addr count : Nat),
    (getText s addr count).1 =
        ((List.range count).map fun i => enc20 (s.read ((addr + i) % 1024)).toNat).flatten ∧
      getInt s addr count = s.memRead addr count ∧
      dec (getText s addr count).1 = (getInt s addr count).1 ∧ (getText s addr count).1.length = 4 * count ∧
      (getText s addr count).2 = (getInt s addr count).2

/-- `dump` is the set of the materialized addresses with the texts of their lines, offered at every boundary, and changes
nothing (spec/20_memory.md section 4; "changes no state" is an inference the spec marks as its own). -/
def Obligations.DumpIsTheMaterializedLines : Prop :=
  (∀ (s : State) (x : Nat) (text : Numeral),
    (x, text) ∈ dump s ↔ s.isMat x = true ∧ text = enc20 (s.read x).toNat) ∧
  ∀ (p : Params) (b : Block), hostApply p .dump b = ⟨b, .dumped (dump b.state)⟩

/-- The windows of the host (spec/20_memory.md section 7, the spec's decision D10, assumption log 10). Once a cycle has run,
and until `Reset`, `set` and `load` are refused with nothing changed; between the cycles of a run so is `get`. Before the
first step `load` answers what `loadPairs` answers (`set` is `SetIsAllOrNothing`), and before the first step or after the run
`get` answers what `getText` and `getInt` answer. -/
def Obligations.HostIsRefusedOutsideItsWindows : Prop :=
  (∀ (fc : FunctionCodes) (s t : State), stepWith fc s = .next t → t.status ≠ .running ∨ 0 < t.steps) ∧
  (∀ (p : Params) (op : HostOp) (b : Block), op ≠ .reset → b.state.status ≠ .running ∨ 0 < b.state.steps →
    ((hostApply p op b).block.state.status ≠ .running ∨ 0 < (hostApply p op b).block.state.steps) ∧
    ((∃ x v, op = .set x v) ∨ (∃ ps, op = .load ps) → hostApply p op b = ⟨b, .refused .outsideWindow⟩)) ∧
  (∀ (p : Params) (op : HostOp) (b : Block), b.state.status = .running → 0 < b.state.steps →
    p.maxSteps = 0 ∨ b.state.steps < p.maxSteps →
    (∃ x n, op = .getText x n) ∨ (∃ x n, op = .getInt x n) → hostApply p op b = ⟨b, .refused .outsideWindow⟩) ∧
  (∀ (p : Params) (pairs : List (List Char × List Char)) (b : Block), b.state.status = .running → b.state.steps = 0 →
    (hostApply p (.load pairs) b).block.state = (loadPairs p.alphabet pairs b.state).1 ∧
      ((loadPairs p.alphabet pairs b.state).2 = none → (hostApply p (.load pairs) b).output = .done) ∧
      ∀ r, (loadPairs p.alphabet pairs b.state).2 = some r → (hostApply p (.load pairs) b).output = .refused r) ∧
  ∀ (p : Params) (addr count : Nat) (b : Block),
    b.state.status ≠ .running ∨ b.state.steps = 0 ∨ (0 < p.maxSteps ∧ p.maxSteps ≤ b.state.steps) →
    hostApply p (.getText addr count) b =
        ⟨{ b with state := (getText b.state addr count).2 }, .text (getText b.state addr count).1⟩ ∧
      hostApply p (.getInt addr count) b =
        ⟨{ b with state := (getInt b.state addr count).2 }, .int (getInt b.state addr count).1⟩

/-- A terminal state is absorbing: a step has no move, no operation but `Reset` and a host `get` changes anything, and a `get`
only adds `V` bits (spec/41_cycle_fetch_decode_run.md section 5, the spec's decision D15, assumption log 7). -/
def Obligations.TerminalStatesAreAbsorbing : Prop :=
  ∀ (p : Params) (op : HostOp) (b : Block), b.state.status ≠ .running → op ≠ .reset →
    let s := b.state
    let t := (hostApply p op b).block.state
    t.a = s.a ∧ t.c = s.c ∧ t.cir = s.cir ∧ SameStore s t ∧ SameEngine s t ∧
      (∀ x, s.isMat x = true → t.isMat x = true) ∧
      ((∀ x n, op ≠ .getText x n) → (∀ x n, op ≠ .getInt x n) → (hostApply p op b).block = b) ∧
      stepWith p.fc s = .fault (.stuck s.status) ∧
      (op = .step → b.loadRefused = false → hostApply p op b = ⟨b, .stuck (.stuck s.status)⟩)

/-! ## Reset -/

/-- R32: the six values the spec gives after reset, in the state the model starts from and in the state the host's `Reset`
leaves, and the first fetch from address 0. `STEPS` 0 is the rule's own row and the spec's decision D7 (assumption log 17).
It says nothing of CIR and FAULT_TEXT, which the spec leaves unspecified (the model's values are assumption log 1). -/
def Obligations.ResetValues : Prop :=
  (State.reset.a = 0 ∧ State.reset.c = 1023 ∧ (∀ x, State.reset.read x = 0 ∧ State.reset.isMat x = false) ∧
    State.reset.status = .running ∧ State.reset.steps = 0 ∧ (fetch State.reset).c = 0) ∧
  ∀ (p : Params) (b : Block),
    let t := (hostApply p .reset b).block.state
    t.a = 0 ∧ t.c = 1023 ∧ (∀ x, t.read x = 0 ∧ t.isMat x = false) ∧ t.status = .running ∧ t.steps = 0 ∧
      (fetch t).c = 0

/-- The invariant holds after reset, under any function codes. -/
def Obligations.ResetMeetsTheInvariant : Prop := ∀ fc : FunctionCodes, Inv fc State.reset

/-! ## The cycle -/

/-- R97: fetch. -/
def Obligations.FetchIncrementsThenLoads : Prop :=
  ∀ s : State,
    (fetch s).c.toNat = (s.c.toNat + 1) % 1024 ∧ (fetch s).cir = s.read ((s.c.toNat + 1) % 1024) ∧
      MatAdds s (fetch s) [(s.c.toNat + 1) % 1024] ∧ (fetch s).a = s.a ∧ SameStore s (fetch s) ∧ SameEngine s (fetch s)

/-- A step of a Running machine is `exec` of the instruction its next line decodes to, on the state fetch leaves, with the
end of the cycle around it: a cycle that raised stops there; a completed one counts and makes the halting test
(spec/41_cycle_fetch_decode_run.md section 3; not counting a faulting cycle is the spec's decision D13). -/
def Obligations.StepRunsTheDecodedInstruction : Prop :=
  (∀ (fc : FunctionCodes) (s u : State) (i : Instr), s.status = .running →
    decode fc (s.read ((s.c.toNat + 1) % 1024)) = i → exec i (fetch s) = .next u →
    ∃ t, stepWith fc s = .next t ∧
      t.a = u.a ∧ t.c = u.c ∧ t.cir = u.cir ∧ t.mem = u.mem ∧ t.mat = u.mat ∧ t.faultText = u.faultText ∧
      (u.status ≠ .running → t.status = u.status ∧ t.steps = u.steps) ∧
      (u.status = .running →
        t.steps = u.steps + 1 ∧ t.status = if u.c = s.c then .haltedLoop else .running)) ∧
  ∀ s : State, step s = stepWith fcRef s

/-- A step answers a next state exactly when the machine is Running; otherwise it is stuck, and it is never refused
(spec/41_cycle_fetch_decode_run.md section 6 and the spec's decision D15; assumption log 7). -/
def Obligations.StepIsEnabledExactlyWhenRunning : Prop :=
  ∀ (fc : FunctionCodes) (s : State),
    (s.status = .running ↔ ∃ t, stepWith fc s = .next t) ∧
      (s.status ≠ .running ↔ stepWith fc s = .fault (.stuck s.status))

/-- R96: the transitions of the engine's state, every row of the table. -/
def Obligations.StatusTransitions : Prop :=
  (∀ (fc : FunctionCodes) (s : State), s.status = .running →
    ∃ t, stepWith fc s = .next t ∧
      (decodeFC fc (lineFc (s.read ((s.c.toNat + 1) % 1024))) = some .neg → t.status = .faultUnimplemented) ∧
      (decodeFC fc (lineFc (s.read ((s.c.toNat + 1) % 1024))) = none → t.status = .faultInvalid) ∧
      (∀ o, decodeFC fc (lineFc (s.read ((s.c.toNat + 1) % 1024))) = some o → o ≠ .neg →
        (t.c ≠ s.c → t.status = .running) ∧ (t.c = s.c → t.status = .haltedLoop))) ∧
  (∀ (p : Params) (b : Block), (hostApply p .reset b).block.state.status = .running) ∧
  ∀ (p : Params) (op : HostOp) (b : Block), b.state.status ≠ .running → op ≠ .reset →
    (hostApply p op b).block.state.status = b.state.status ∧ ∀ t, stepWith p.fc b.state ≠ .next t

/-- A cycle halts exactly when it executes UBR, or CBA with bit 39 of `A` clear, and the target line's low ten bits are `C` as
it was before the fetch (spec/41_cycle_fetch_decode_run.md section 4, an inference the spec marks as its own). -/
def Obligations.HaltsExactlyAtATakenBranchToBefore : Prop :=
  ∀ (fc : FunctionCodes) (s t : State), stepWith fc s = .next t →
    (t.status = .haltedLoop ↔
      ∃ x, (decode fc (s.read ((s.c.toNat + 1) % 1024)) = .ubr x ∨
          (decode fc (s.read ((s.c.toNat + 1) % 1024)) = .cba x ∧ s.a.toNat < 2 ^ 39)) ∧
        (s.read x.toNat).toNat % 1024 = s.c.toNat)

/-- How each operation leaves `C`, faulting ones included (spec/41_cycle_fetch_decode_run.md section 6, an inference the spec
marks as its own). -/
def Obligations.PcAfterEachOperation : Prop :=
  ∀ (fc : FunctionCodes) (s t : State), stepWith fc s = .next t →
    t.c.toNat =
      match decode fc (s.read ((s.c.toNat + 1) % 1024)) with
      | .ubr x => (s.read x.toNat).toNat % 1024
      | .cba x => if s.a.toNat < 2 ^ 39 then (s.read x.toNat).toNat % 1024 else (s.c.toNat + 1) % 1024
      | _ => (s.c.toNat + 1) % 1024

/-- The state a fatal fault leaves (spec/60_exceptions.md section 2, the spec's decision D13, assumption log 6). -/
def Obligations.FaultingCycleLeaves : Prop :=
  ∀ (fc : FunctionCodes) (s t : State), stepWith fc s = .next t →
    t.status = .faultInvalid ∨ t.status = .faultUnimplemented →
    t.c.toNat = (s.c.toNat + 1) % 1024 ∧ t.cir = s.read ((s.c.toNat + 1) % 1024) ∧
      MatAdds s t [(s.c.toNat + 1) % 1024] ∧ t.a = s.a ∧ SameStore s t ∧ t.steps = s.steps ∧
      (t.status = .faultInvalid → t.faultText = s.read ((s.c.toNat + 1) % 1024)) ∧
      (t.status = .faultUnimplemented → t.faultText = s.faultText) ∧ stepRecord fc s = none

/-- Every step keeps the invariant, from every state that meets it: the canonical memory, a zero line wherever `V` is 0, and
what each terminal value of `STATUS` says about the cycle that reached it (spec/10_state.md section 2 and spec/60_exceptions.md
section 2; an inference the spec marks as its own). -/
def Obligations.EveryStepKeepsTheInvariant : Prop :=
  (∀ (fc : FunctionCodes) (s t : State), Inv fc s → stepWith fc s = .next t → Inv fc t) ∧
    ∀ s t : State, Inv fcRef s → step s = .next t → Inv fcRef t

/-- Every operation of the host's interface keeps the invariant, a refused one and a partly done `load` too. -/
def Obligations.EveryHostOperationKeepsTheInvariant : Prop :=
  ∀ (p : Params) (op : HostOp) (b : Block), Inv p.fc b.state → Inv p.fc (hostApply p op b).block.state

/-- Who writes what in a cycle (spec/10_state.md section 7, an inference the spec marks as its own): only LDA, CLR, ADD, SUB
and DBL change `A`; only STA changes a line, and only its own two; only an invalid line changes `FAULT_TEXT`; no cycle clears
a `V` bit. -/
def Obligations.WritersOfEachItem : Prop :=
  ∀ (fc : FunctionCodes) (s t : State), stepWith fc s = .next t →
    let i := decode fc (s.read ((s.c.toNat + 1) % 1024))
    (t.a ≠ s.a → ∃ x, i = .lda x ∨ i = .clr x ∨ i = .add x ∨ i = .sub x ∨ i = .dbl x) ∧
    (∀ y, t.read y ≠ s.read y → ∃ x : Addr, i = .sta x ∧ (y = x.toNat ∨ y = (x.toNat + 1) % 1024)) ∧
    (t.faultText ≠ s.faultText → ∃ x c, i = .invalid x c) ∧
    (∀ y, s.isMat y = true → t.isMat y = true) ∧
    (t.cir ≠ s.read ((s.c.toNat + 1) % 1024) → ∃ x, i = .sta x)

/-- Which lines each cycle materializes: the one fetched, and its operand lines (spec/41_cycle_fetch_decode_run.md section 2;
that the other operations read no operand is the spec's decision D12, assumption log 11). -/
def Obligations.LinesEachCycleMaterializes : Prop :=
  ∀ (fc : FunctionCodes) (s t : State), stepWith fc s = .next t →
    MatAdds s t ((s.c.toNat + 1) % 1024 ::
      match decode fc (s.read ((s.c.toNat + 1) % 1024)) with
      | .cba x | .ubr x => [x.toNat]
      | .sta x | .lda x | .add x | .sub x | .dbl x => [x.toNat, (x.toNat + 1) % 1024]
      | .clr _ | .nop _ | .neg _ | .invalid _ _ => [])

/-- A line STA has written is what the very next cycle fetches (spec/20_memory.md section 7, an inference the spec marks as
its own): the cycle after a STA sees its own next line changed when the STA wrote it. -/
def Obligations.StoreIsSeenByTheNextFetch : Prop :=
  ∀ (fc : FunctionCodes) (s : State) (x : Addr), s.status = .running →
    decode fc (s.read ((s.c.toNat + 1) % 1024)) = .sta x →
    ∃ t, stepWith fc s = .next t ∧ t.status = .running ∧
      (fetch t).cir.toNat =
        if (s.c.toNat + 2) % 1024 = x.toNat then s.a.toNat % 2 ^ 20
        else if (s.c.toNat + 2) % 1024 = (x.toNat + 1) % 1024 then s.a.toNat / 2 ^ 20
        else (s.read ((s.c.toNat + 2) % 1024)).toNat

/-- The host's own placing: the word placed is decoded as the table's word is, it is what the next cycle fetches, the machine
is Running with its registers, FAULT_TEXT and STEPS as they were, and the placed line alone is written and materialized (the
model's own, assumption log 8). -/
def Obligations.PlacedWordIsTheOneFetched : Prop :=
  ∀ (s : State) (nbits w : Nat),
    let t := s.withFetchWord nbits w
    decodeTableWord nbits w = some (decode fcRef (fetch t).cir) ∧
      t.status = .running ∧ t.a = s.a ∧ t.c = s.c ∧ t.cir = s.cir ∧ t.faultText = s.faultText ∧ t.steps = s.steps ∧
      MatAdds s t [(s.c.toNat + 1) % 1024] ∧ ∀ x, x ≠ (s.c.toNat + 1) % 1024 → t.read x = s.read x

/-! ## The instructions: each completes, with its result and its frame

Each says the encoding for every assignment FC of function codes. The codes and texts that the rules give in passing under
FC_REF are reference values, and are stated apart, in `ReferenceCodesAndTexts`. -/

/-- R116: CBA. Taken exactly when `A < 2^39`; the target line is read either way. -/
def Obligations.CbaResultAndFrame : Prop :=
  ∀ (fc : FunctionCodes) (addr : Addr) (s : State),
    (encode fc (.cba addr)).toNat = addr.toNat + 1024 * (fc.code .cba).toNat ∧
    ∃ t, exec (.cba addr) s = .next t ∧
      (¬ (2 ^ 39 ≤ s.a.toNat ∧ s.a.toNat < 2 ^ 40) → t.c.toNat = (s.read addr.toNat).toNat % 1024) ∧
      (2 ^ 39 ≤ s.a.toNat ∧ s.a.toNat < 2 ^ 40 → t.c = s.c) ∧
      t.a = s.a ∧ t.cir = s.cir ∧ SameStore s t ∧ MatAdds s t [addr.toNat] ∧ SameEngine s t

/-- R117: UBR. -/
def Obligations.UbrResultAndFrame : Prop :=
  ∀ (fc : FunctionCodes) (addr : Addr) (s : State),
    (encode fc (.ubr addr)).toNat = addr.toNat + 1024 * (fc.code .ubr).toNat ∧
    ∃ t, exec (.ubr addr) s = .next t ∧ t.c.toNat = (s.read addr.toNat).toNat % 1024 ∧
      t.a = s.a ∧ t.cir = s.cir ∧ SameStore s t ∧ MatAdds s t [addr.toNat] ∧ SameEngine s t

/-- R120: STA. The two stored lines are `addr` and the next, wrapping; every other line is as before; in the document's terms
the write is `set(ENC10(addr), ENC40(A))`. -/
def Obligations.StaResultAndFrame : Prop :=
  ∀ (fc : FunctionCodes) (addr : Addr) (s : State),
    (encode fc (.sta addr)).toNat = addr.toNat + 1024 * (fc.code .sta).toNat ∧
    ∃ t, exec (.sta addr) s = .next t ∧
      (t.read addr.toNat).toNat = s.a.toNat % 2 ^ 20 ∧
      (t.read ((addr.toNat + 1) % 1024)).toNat = s.a.toNat / 2 ^ 20 ∧
      (∀ x, x ≠ addr.toNat → x ≠ (addr.toNat + 1) % 1024 → t.read x = s.read x) ∧
      t.cir.toNat = s.a.toNat % 2 ^ 20 ∧ t.a = s.a ∧ t.c = s.c ∧
      MatAdds s t [addr.toNat, (addr.toNat + 1) % 1024] ∧ SameEngine s t ∧
      t = (setNumeral s (enc10 addr.toNat) (enc40 s.a.toNat)).setCir t.cir

/-- R121: LDA. -/
def Obligations.LdaResultAndFrame : Prop :=
  ∀ (fc : FunctionCodes) (addr : Addr) (s : State),
    (encode fc (.lda addr)).toNat = addr.toNat + 1024 * (fc.code .lda).toNat ∧
    ∃ t, exec (.lda addr) s = .next t ∧
      t.a.toNat = (s.read addr.toNat).toNat + 2 ^ 20 * (s.read ((addr.toNat + 1) % 1024)).toNat ∧
      t.c = s.c ∧ t.cir = s.cir ∧ SameStore s t ∧ MatAdds s t [addr.toNat, (addr.toNat + 1) % 1024] ∧ SameEngine s t

/-- R122: CLR. That it sets no `V` bit is the spec's decision D12, cited inside the rule. -/
def Obligations.ClrResultAndFrame : Prop :=
  ∀ (fc : FunctionCodes) (addr : Addr) (s : State),
    (encode fc (.clr addr)).toNat = addr.toNat + 1024 * (fc.code .clr).toNat ∧
    ∃ t, exec (.clr addr) s = .next t ∧ t.a = 0 ∧
      t.c = s.c ∧ t.cir = s.cir ∧ SameStore s t ∧ MatAdds s t [] ∧ SameEngine s t

/-- R124: ADD. -/
def Obligations.AddResultAndFrame : Prop :=
  ∀ (fc : FunctionCodes) (addr : Addr) (s : State),
    (encode fc (.add addr)).toNat = addr.toNat + 1024 * (fc.code .add).toNat ∧
    ∃ t, exec (.add addr) s = .next t ∧
      t.a.toNat =
        (s.a.toNat + ((s.read addr.toNat).toNat + 2 ^ 20 * (s.read ((addr.toNat + 1) % 1024)).toNat)) % 2 ^ 40 ∧
      t.c = s.c ∧ t.cir = s.cir ∧ SameStore s t ∧ MatAdds s t [addr.toNat, (addr.toNat + 1) % 1024] ∧ SameEngine s t

/-- R125: SUB, by the residue and by its two cases. -/
def Obligations.SubResultAndFrame : Prop :=
  ∀ (fc : FunctionCodes) (addr : Addr) (s : State),
    (encode fc (.sub addr)).toNat = addr.toNat + 1024 * (fc.code .sub).toNat ∧
    ∃ t, exec (.sub addr) s = .next t ∧
      (t.a.toNat : Int) = ((s.a.toNat : Int) - (pairAt s addr : Int)) % 2 ^ 40 ∧
      (pairAt s addr ≤ s.a.toNat → t.a.toNat = s.a.toNat - pairAt s addr) ∧
      (s.a.toNat < pairAt s addr → t.a.toNat = s.a.toNat + 2 ^ 40 - pairAt s addr) ∧
      pairAt s addr = (s.read addr.toNat).toNat + 2 ^ 20 * (s.read ((addr.toNat + 1) % 1024)).toNat ∧
      t.c = s.c ∧ t.cir = s.cir ∧ SameStore s t ∧ MatAdds s t [addr.toNat, (addr.toNat + 1) % 1024] ∧ SameEngine s t

/-- R126: NEG raises Unimplemented Operation, always: its own arm, and the cycle that fetches it. -/
def Obligations.NegRaisesUnimplemented : Prop :=
  (∀ (fc : FunctionCodes) (addr : Addr) (s : State),
    (encode fc (.neg addr)).toNat = addr.toNat + 1024 * (fc.code .neg).toNat ∧
    ∃ t, exec (.neg addr) s = .next t ∧ t.status = .faultUnimplemented ∧
      t.a = s.a ∧ t.c = s.c ∧ t.cir = s.cir ∧ SameStore s t ∧ MatAdds s t [] ∧
      t.faultText = s.faultText ∧ t.steps = s.steps) ∧
  ∀ (fc : FunctionCodes) (addr : Addr) (s : State), s.status = .running →
    decode fc (s.read ((s.c.toNat + 1) % 1024)) = .neg addr →
    ∃ t, stepWith fc s = .next t ∧ t.status = .faultUnimplemented ∧ t.a = s.a ∧ SameStore s t ∧
      t.c.toNat = (s.c.toNat + 1) % 1024 ∧ t.cir = s.read ((s.c.toNat + 1) % 1024) ∧ t.steps = s.steps

/-- R127: DBL doubles its operand; the old `A` is lost. -/
def Obligations.DblResultAndFrame : Prop :=
  ∀ (fc : FunctionCodes) (addr : Addr) (s : State),
    (encode fc (.dbl addr)).toNat = addr.toNat + 1024 * (fc.code .dbl).toNat ∧
    ∃ t, exec (.dbl addr) s = .next t ∧
      t.a.toNat =
        2 * ((s.read addr.toNat).toNat + 2 ^ 20 * (s.read ((addr.toNat + 1) % 1024)).toNat) % 2 ^ 40 ∧
      t.a.toNat % 2 = 0 ∧
      t.c = s.c ∧ t.cir = s.cir ∧ SameStore s t ∧ MatAdds s t [addr.toNat, (addr.toNat + 1) % 1024] ∧ SameEngine s t

/-- R133: NOP changes nothing; the cycle around it still advances `C`, loads `CIR`, counts, and cannot halt. -/
def Obligations.NopResultAndFrame : Prop :=
  (∀ (fc : FunctionCodes) (addr : Addr) (s : State),
    (encode fc (.nop addr)).toNat = addr.toNat + 1024 * (fc.code .nop).toNat ∧ exec (.nop addr) s = .next s) ∧
  ∀ (fc : FunctionCodes) (addr : Addr) (s : State), s.status = .running →
    decode fc (s.read ((s.c.toNat + 1) % 1024)) = .nop addr →
    ∃ t, stepWith fc s = .next t ∧ t.status = .running ∧ t.steps = s.steps + 1 ∧
      t.c.toNat = (s.c.toNat + 1) % 1024 ∧ t.cir = s.read ((s.c.toNat + 1) % 1024) ∧
      MatAdds s t [(s.c.toNat + 1) % 1024] ∧ t.a = s.a ∧ SameStore s t ∧ t.faultText = s.faultText ∧
      (stepRecord fc s).isSome = true

/-- R134: INVALID raises Invalid Instruction carrying the whole line, always: its own arm, and the cycle that fetches a line
of any of the unassigned codes. -/
def Obligations.InvalidRaisesInvalidInstruction : Prop :=
  (∀ (addr : Addr) (c : FnCode) (s : State),
    ∃ t, exec (.invalid addr c) s = .next t ∧ t.status = .faultInvalid ∧ t.faultText = s.cir ∧
      t.a = s.a ∧ t.c = s.c ∧ t.cir = s.cir ∧ SameStore s t ∧ MatAdds s t [] ∧ t.steps = s.steps) ∧
  ∀ (fc : FunctionCodes) (s : State), s.status = .running →
    (∀ o, fc.code o ≠ lineFc (s.read ((s.c.toNat + 1) % 1024))) →
    ∃ t, stepWith fc s = .next t ∧ t.status = .faultInvalid ∧ t.faultText = s.read ((s.c.toNat + 1) % 1024) ∧
      dec (enc20 t.faultText.toNat) = (s.read ((s.c.toNat + 1) % 1024)).toNat ∧ t.a = s.a ∧ SameStore s t ∧
      t.c.toNat = (s.c.toNat + 1) % 1024 ∧ t.cir = s.read ((s.c.toNat + 1) % 1024) ∧ t.steps = s.steps

/-- After STA to a pair, LDA of the same pair restores the accumulator, whatever happened in between, as long as the two
lines were not written (spec/43_accumulator_transfer.md, an inference the spec marks as its own). -/
def Obligations.StoreThenLoadRestores : Prop :=
  ∀ (addr : Addr) (s : State), ∃ t, exec (.sta addr) s = .next t ∧
    ∀ u : State, u.read addr.toNat = t.read addr.toNat →
      u.read ((addr.toNat + 1) % 1024) = t.read ((addr.toNat + 1) % 1024) →
      ∃ w, exec (.lda addr) u = .next w ∧ w.a = s.a

/-- The signed reading of the accumulator: ADD, SUB and DBL compute the two's complement sum, difference and double modulo
2^40, and CBA is taken when `A` is zero or positive (spec/44_arithmetic.md, a remark the spec marks as its own). -/
def Obligations.SignedReadingOfArithmetic : Prop :=
  ∀ (addr : Addr) (s : State),
    let operand : Int := (BitVec.ofNat 40 (pairAt s addr)).toInt
    (∀ t, exec (.add addr) s = .next t → t.a.toInt = (s.a.toInt + operand).bmod (2 ^ 40)) ∧
    (∀ t, exec (.sub addr) s = .next t → t.a.toInt = (s.a.toInt - operand).bmod (2 ^ 40)) ∧
    (∀ t, exec (.dbl addr) s = .next t → t.a.toInt = (2 * operand).bmod (2 ^ 40)) ∧
    (∀ t, exec (.cba addr) s = .next t → 0 ≤ s.a.toInt → t.c.toNat = (s.read addr.toNat).toNat % 1024) ∧
    ∀ t, exec (.cba addr) s = .next t → s.a.toInt < 0 → t.c = s.c

/-! ## Running and reporting -/

/-- R107: the run loop. While it may go on it executes `Step` and goes on from the state the step leaves; where it may not, it
has ended where it is. With a bound `n > 0`, from a state within it, the run ends with at most `n` completed cycles, and ends
still Running only at exactly `n`, where it could be stepped further; with bound 0 a run that ends, ends by the halting loop or
a fault. The bound is on `STEPS`, as in the rule's loop (a bound on one call is `RunOneRepeatedSingleSteps`, assumption
log 19). -/
def Obligations.RunLoopStopsAtItsBound : Prop :=
  (∀ (n : Nat) (s : State), mayStep n s = true ↔ s.status = .running ∧ (n = 0 ∨ s.steps < n)) ∧
  (∀ (fc : FunctionCodes) (n : Nat) (s u : State),
    (mayStep n s = true → ∃ t, stepWith fc s = .next t ∧ (RunEndsAt fc n s u ↔ RunEndsAt fc n t u)) ∧
    (mayStep n s = false → (RunEndsAt fc n s u ↔ u = s))) ∧
  (∀ (fc : FunctionCodes) (n : Nat) (s : State), 0 < n → s.steps ≤ n →
    RunEndsAt fc n s (runBounded fc n s) ∧ (runBounded fc n s).steps ≤ n ∧
      ((runBounded fc n s).status = .running →
        (runBounded fc n s).steps = n ∧ ∃ u, stepWith fc (runBounded fc n s) = .next u)) ∧
  ∀ (fc : FunctionCodes) (s t : State), RunEndsAt fc 0 s t → t.status ≠ .running

/-- A run ends in at most one state, and the ways it can have ended are the four of the spec, told apart by `STATUS`
(spec/41_cycle_fetch_decode_run.md section 6 and spec/60_exceptions.md section 2). -/
def Obligations.RunEndsInOneWay : Prop :=
  (∀ (fc : FunctionCodes) (n : Nat) (s t u : State), RunEndsAt fc n s t → RunEndsAt fc n s u → t = u) ∧
  ∀ (n : Nat) (s : State),
    (runEnd n s = none ↔ mayStep n s = true) ∧
    (runEnd n s = some .normalHalt ↔ s.status = .haltedLoop) ∧
    (runEnd n s = some .unimplementedOperation ↔ s.status = .faultUnimplemented) ∧
    (∀ text, runEnd n s = some (.invalidInstruction text) ↔
      s.status = .faultInvalid ∧ text = enc20 s.faultText.toNat) ∧
    (runEnd n s = some .stepBound ↔ s.status = .running ∧ 0 < n ∧ n ≤ s.steps) ∧
    finalReport s = ⟨s.status, if s.status = .faultInvalid then some (enc20 s.faultText.toNat) else none, s.steps⟩

/-- The step record of a completed cycle, and none of a faulting one (spec/41_cycle_fetch_decode_run.md section 6; its three
open fields are the spec's decision D16, assumption log 13). -/
def Obligations.StepRecordOfEachCycle : Prop :=
  ∀ (fc : FunctionCodes) (s t : State), stepWith fc s = .next t →
    (FaultFree t → ∃ r, stepRecord fc s = some r ∧
      r.step = s.steps ∧ r.address = enc10 ((s.c.toNat + 1) % 1024) ∧
      r.instructionText = enc20 (s.read ((s.c.toNat + 1) % 1024)).toNat ∧ r.accumulatorText = enc40 t.a.toNat ∧
      (∀ x, decode fc (s.read ((s.c.toNat + 1) % 1024)) = .sta x →
        r.changedAddress = some (enc10 x.toNat) ∧ r.changedValue = some (enc40 s.a.toNat)) ∧
      ((∀ x, decode fc (s.read ((s.c.toNat + 1) % 1024)) ≠ .sta x) → r.changedAddress = none ∧ r.changedValue = none)) ∧
    (t.status = .faultInvalid ∨ t.status = .faultUnimplemented → stepRecord fc s = none)

/-- A block whose `load` was refused is not run: until `Reset` every step of it is refused with nothing changed, whatever the
host does in between, and booting stops before the run. `Reset` makes it fit again, and a step of a fit block is the machine's
`Step` with its record (spec/20_memory.md section 4 and spec/93_implementation_defined.md U13, assumption log 9; that `Reset` alone ends it is
the model's choice, assumption log 20). -/
def Obligations.RefusedLoadIsNotRun : Prop :=
  (∀ (p : Params) (pairs : List (List Char × List Char)) (b : Block) (r : Refusal),
    beforeFirstStep b.state = true → (loadPairs p.alphabet pairs b.state).2 = some r →
    (hostApply p (.load pairs) b).block.loadRefused = true) ∧
  (∀ (p : Params) (b : Block), b.loadRefused = true →
    hostApply p .step b = ⟨b, .refused .unfitToRun⟩ ∧
    ∀ op, op ≠ .reset → (hostApply p op b).block.loadRefused = true ∧ SameEngine b.state (hostApply p op b).block.state) ∧
  (∀ (p : Params) (pairs : List (List Char × List Char)) (fuel : Nat) (t : State) (r : Refusal),
    loadPairs p.alphabet pairs .reset = (t, some r) → bootAndRun p pairs fuel = ⟨⟨t, true⟩, .refused r⟩) ∧
  ∀ (p : Params) (b : Block),
    (hostApply p .reset b).block.loadRefused = false ∧
    (b.loadRefused = false → ∀ t, stepWith p.fc b.state = .next t →
      hostApply p .step b = ⟨⟨t, false⟩, .cycle (stepRecord p.fc b.state)⟩)

/-- R156's single-stepping, by `Run(1)` repeated and by `Step` (spec/60_exceptions.md section 3): `n` calls of `Run(1)` in a row
run what one call of `Run(n)` runs; a call of `Run(1)` runs the machine's `Step` where it has one, with its step record, and
leaves a terminal machine as it is; on a block fit to run it leaves the state the host's step leaves. From `STEPS` 0 a call is
R107's run, and every call ends as R107's loop does with the bound counted from the call (assumption log 19). -/
def Obligations.RunOneRepeatedSingleSteps : Prop :=
  (∀ (fc : FunctionCodes) (n : Nat) (s : State), (runCall fc 1)^[n] s = runCall fc n s) ∧
  (∀ (fc : FunctionCodes) (s : State),
    (∀ t, stepWith fc s = .next t → runCall fc 1 s = t) ∧ (s.status ≠ .running → runCall fc 1 s = s) ∧
    (s.status = .running → ∃ t, stepWith fc s = .next t ∧ runCall fc 1 s = t) ∧
    runCallTrace fc 1 s = (stepRecord fc s).toList) ∧
  (∀ (p : Params) (b : Block), b.loadRefused = false →
    (hostApply p .step b).block = { b with state := runCall p.fc 1 b.state }) ∧
  ∀ (fc : FunctionCodes) (n : Nat) (s : State), 0 < n →
    (s.steps = 0 → runCall fc n s = runBounded fc n s) ∧ RunEndsAt fc (s.steps + n) s (runCall fc n s) ∧
    (runCall fc n s).steps ≤ s.steps + n ∧
    ((runCall fc n s).status = .running → (runCall fc n s).steps = s.steps + n)
end

