-- ==== Sys2Proof/Laws/Codec.lean ====
section
/-!
SUPPORT. The codec's symbol-level laws (spec/40_symbol_codec.md R82 to R87): what the division loop writes and what the
positional sum reads back.
-/

namespace Sys2Proof.Machine

@[simp] theorem dec_nil : dec [] = 0 := rfl

@[simp] theorem dec_cons (x : Symbol) (s : Numeral) : dec (x :: s) = x.toNat + 32 * dec s := rfl

@[simp] theorem length_symbols (w n : Nat) : (symbols w n).length = w := by
  induction w generalizing n with
  | zero => rfl
  | succ w ih => simp [symbols, ih]

/-- The loop writes `n` modulo `32 ^ w`. -/
theorem dec_symbols (w n : Nat) : dec (symbols w n) = n % 32 ^ w := by
  induction w generalizing n with
  | zero => simp [symbols, Nat.mod_one]
  | succ w ih =>
    have h : (BitVec.ofNat 5 (n % 32)).toNat = n % 32 := by simp
    rw [symbols, dec_cons, ih, h, Nat.pow_succ, Nat.mul_comm (32 ^ w) 32, Nat.mod_mul]

/-- Reading a numeral and writing it back at its own length gives it again. -/
theorem symbols_dec (s : Numeral) : symbols s.length (dec s) = s := by
  induction s with
  | nil => rfl
  | cons x s ih =>
    have hx := x.isLt
    have h1 : BitVec.ofNat 5 ((x.toNat + 32 * dec s) % 32) = x := by
      apply BitVec.eq_of_toNat_eq
      simp only [BitVec.toNat_ofNat]
      omega
    have h2 : (x.toNat + 32 * dec s) / 32 = dec s := by omega
    simp only [List.length_cons, dec_cons, symbols, h1, h2, ih]

/-- The value of a concatenation: the right part counts `32 ^ length` of the left one. -/
theorem dec_append (s t : Numeral) : dec (s ++ t) = dec s + 32 ^ s.length * dec t := by
  induction s with
  | nil => simp
  | cons x s ih => simp only [List.cons_append, dec_cons, ih, List.length_cons]; ring

/-- A numeral of `n` symbols is below `32 ^ n`. -/
theorem dec_lt (s : Numeral) : dec s < 32 ^ s.length := by
  induction s with
  | nil => simp
  | cons x s ih =>
    have := x.isLt
    simp only [dec_cons, List.length_cons, Nat.pow_succ]
    omega

/-- Zero symbols on the right, the high-order side, change no value (R82, R87). -/
theorem dec_replicate_zero (k : Nat) : dec (List.replicate k 0#5) = 0 := by
  induction k with
  | zero => rfl
  | succ k ih => simp [List.replicate_succ, ih]

theorem dec_padLine (s : Numeral) : dec (padLine s) = dec s := by
  simp [padLine, dec_append, dec_replicate_zero]

/-- Two numerals of one length with one value are the same numeral (R91). -/
theorem dec_injective {s t : Numeral} (hl : s.length = t.length) (h : dec s = dec t) : s = t := by
  rw [← symbols_dec s, ← symbols_dec t, hl, h]

/-- The first symbols of a longer writing are a shorter writing, the rest the writing of the quotient. -/
theorem symbols_add (v w n : Nat) : symbols (v + w) n = symbols v n ++ symbols w (n / 32 ^ v) := by
  induction v generalizing n with
  | zero => simp [symbols]
  | succ v ih =>
    rw [Nat.succ_add, symbols, ih, symbols, List.cons_append, Nat.div_div_eq_div_mul, Nat.pow_succ, Nat.mul_comm 32]

/-- A symbol's glyph stands for the symbol, under any alphabet (R78). -/
@[simp] theorem valueOf_glyphOf (al : Alphabet) (x : Symbol) : valueOf al (glyphOf al x) = some x := by
  have hx : x.toNat < al.glyphs.length := by rw [al.complete]; exact x.isLt
  have h : al.glyphs.idxOf? (al.glyphs[x.toNat]'hx) = some x.toNat := by
    rw [List.idxOf?, List.findIdx?_eq_some_iff_getElem]
    refine ⟨hx, by simp, fun j hj => ?_⟩
    simpa [al.distinct.getElem_inj_iff] using (show j ≠ x.toNat by omega)
  simp [valueOf, glyphOf, h]

end Sys2Proof.Machine
end

