-- ==== Sys2Proof/Laws/Decode.lean ====
section
/-!
SUPPORT. The laws of the line's two fields and of matching a function code (spec/30_encoding.md R62, R63, R66).
-/

namespace Sys2Proof

@[simp] theorem lineAddr_mkLine (a : Addr) (c : FnCode) : lineAddr (mkLine a c) = a := by
  apply BitVec.eq_of_toNat_eq
  have := a.isLt
  simp only [lineAddr, mkLine, BitVec.extractLsb'_toNat, BitVec.toNat_append, Nat.shiftRight_zero]
  rw [Nat.shiftLeft_eq, Nat.mul_comm, ← Nat.two_pow_add_eq_or_of_lt a.isLt]
  omega

@[simp] theorem lineFc_mkLine (a : Addr) (c : FnCode) : lineFc (mkLine a c) = c := by
  apply BitVec.eq_of_toNat_eq
  have := a.isLt
  have := c.isLt
  simp only [lineFc, mkLine, BitVec.extractLsb'_toNat, BitVec.toNat_append]
  rw [Nat.shiftLeft_eq, Nat.mul_comm, ← Nat.two_pow_add_eq_or_of_lt a.isLt, Nat.shiftRight_eq_div_pow]
  omega

theorem lineAddr_toNat (l : Line) : (lineAddr l).toNat = l.toNat % 1024 := by simp [lineAddr]

theorem lineFc_toNat (l : Line) : (lineFc l).toNat = l.toNat / 1024 := by
  have := l.isLt
  simp only [lineFc, BitVec.extractLsb'_toNat, Nat.shiftRight_eq_div_pow]
  omega

theorem mkLine_toNat (a : Addr) (c : FnCode) : (mkLine a c).toNat = a.toNat + 1024 * c.toNat := by
  simp only [mkLine, BitVec.toNat_append]
  rw [Nat.shiftLeft_eq, Nat.mul_comm, ← Nat.two_pow_add_eq_or_of_lt a.isLt]
  omega

theorem Op.mem_all (o : Op) : o ∈ Op.all := by cases o <;> decide

theorem assigned_iff (fc : FunctionCodes) (c : FnCode) : fc.assigned c = true ↔ ∃ o, fc.code o = c := by
  simp [FunctionCodes.assigned, Op.mem_all]

theorem decodeFC_of_code (fc : FunctionCodes) (o : Op) : decodeFC fc (fc.code o) = some o := by
  cases h : decodeFC fc (fc.code o) with
  | none => exact absurd (List.find?_eq_none.mp h o (Op.mem_all o)) (by simp)
  | some p => exact congrArg some (fc.injective _ _ (by simpa using List.find?_some h))

theorem decodeFC_of_unassigned (fc : FunctionCodes) (c : FnCode) (h : fc.assigned c = false) : decodeFC fc c = none := by
  rw [decodeFC, List.find?_eq_none]
  intro o _ ho
  have := (assigned_iff fc c).mpr ⟨o, by simpa using ho⟩
  simp [h] at this

/-- What decoding answers, by the operation the function code names. -/
theorem decode_some {fc : FunctionCodes} {l : Line} {o : Op} (h : decodeFC fc (lineFc l) = some o) :
    decode fc l = o.instr (lineAddr l) := by simp [decode, h]

theorem decode_none {fc : FunctionCodes} {l : Line} (h : decodeFC fc (lineFc l) = none) :
    decode fc l = .invalid (lineAddr l) (lineFc l) := by simp [decode, h]

end Sys2Proof
end

