-- ==== Sys2Proof/Laws/State.lean ====
section
/-!
SUPPORT. One lemma per field per update of `State`, true by unfolding, so that no proof unfolds a record update; and the
materialized bits of each update.
-/

namespace Sys2Proof.Machine

section Setters
variable (s : State)

@[simp] theorem setA_a (v : Acc) : (s.setA v).a = v := rfl
@[simp] theorem setA_c (v : Acc) : (s.setA v).c = s.c := rfl
@[simp] theorem setA_cir (v : Acc) : (s.setA v).cir = s.cir := rfl
@[simp] theorem setA_mem (v : Acc) : (s.setA v).mem = s.mem := rfl
@[simp] theorem setA_mat (v : Acc) : (s.setA v).mat = s.mat := rfl
@[simp] theorem setA_status (v : Acc) : (s.setA v).status = s.status := rfl
@[simp] theorem setA_faultText (v : Acc) : (s.setA v).faultText = s.faultText := rfl
@[simp] theorem setA_steps (v : Acc) : (s.setA v).steps = s.steps := rfl

@[simp] theorem setC_a (v : Addr) : (s.setC v).a = s.a := rfl
@[simp] theorem setC_c (v : Addr) : (s.setC v).c = v := rfl
@[simp] theorem setC_cir (v : Addr) : (s.setC v).cir = s.cir := rfl
@[simp] theorem setC_mem (v : Addr) : (s.setC v).mem = s.mem := rfl
@[simp] theorem setC_mat (v : Addr) : (s.setC v).mat = s.mat := rfl
@[simp] theorem setC_status (v : Addr) : (s.setC v).status = s.status := rfl
@[simp] theorem setC_faultText (v : Addr) : (s.setC v).faultText = s.faultText := rfl
@[simp] theorem setC_steps (v : Addr) : (s.setC v).steps = s.steps := rfl

@[simp] theorem setCir_a (v : Line) : (s.setCir v).a = s.a := rfl
@[simp] theorem setCir_c (v : Line) : (s.setCir v).c = s.c := rfl
@[simp] theorem setCir_cir (v : Line) : (s.setCir v).cir = v := rfl
@[simp] theorem setCir_mem (v : Line) : (s.setCir v).mem = s.mem := rfl
@[simp] theorem setCir_mat (v : Line) : (s.setCir v).mat = s.mat := rfl
@[simp] theorem setCir_status (v : Line) : (s.setCir v).status = s.status := rfl
@[simp] theorem setCir_faultText (v : Line) : (s.setCir v).faultText = s.faultText := rfl
@[simp] theorem setCir_steps (v : Line) : (s.setCir v).steps = s.steps := rfl

@[simp] theorem materialize_a (x : Nat) : (s.materialize x).a = s.a := rfl
@[simp] theorem materialize_c (x : Nat) : (s.materialize x).c = s.c := rfl
@[simp] theorem materialize_cir (x : Nat) : (s.materialize x).cir = s.cir := rfl
@[simp] theorem materialize_mem (x : Nat) : (s.materialize x).mem = s.mem := rfl
@[simp] theorem materialize_mat (x : Nat) : (s.materialize x).mat = setMat s.mat x := rfl
@[simp] theorem materialize_status (x : Nat) : (s.materialize x).status = s.status := rfl
@[simp] theorem materialize_faultText (x : Nat) : (s.materialize x).faultText = s.faultText := rfl
@[simp] theorem materialize_steps (x : Nat) : (s.materialize x).steps = s.steps := rfl

@[simp] theorem writeLine_a (x : Nat) (v : Line) : (s.writeLine x v).a = s.a := rfl
@[simp] theorem writeLine_c (x : Nat) (v : Line) : (s.writeLine x v).c = s.c := rfl
@[simp] theorem writeLine_cir (x : Nat) (v : Line) : (s.writeLine x v).cir = s.cir := rfl
@[simp] theorem writeLine_mem (x : Nat) (v : Line) : (s.writeLine x v).mem = s.mem.write x v := rfl
@[simp] theorem writeLine_mat (x : Nat) (v : Line) : (s.writeLine x v).mat = setMat s.mat x := rfl
@[simp] theorem writeLine_status (x : Nat) (v : Line) : (s.writeLine x v).status = s.status := rfl
@[simp] theorem writeLine_faultText (x : Nat) (v : Line) : (s.writeLine x v).faultText = s.faultText := rfl
@[simp] theorem writeLine_steps (x : Nat) (v : Line) : (s.writeLine x v).steps = s.steps := rfl

@[simp] theorem raise_a (f : FatalFault) : (s.raise f).a = s.a := by cases f <;> rfl
@[simp] theorem raise_c (f : FatalFault) : (s.raise f).c = s.c := by cases f <;> rfl
@[simp] theorem raise_cir (f : FatalFault) : (s.raise f).cir = s.cir := by cases f <;> rfl
@[simp] theorem raise_mem (f : FatalFault) : (s.raise f).mem = s.mem := by cases f <;> rfl
@[simp] theorem raise_mat (f : FatalFault) : (s.raise f).mat = s.mat := by cases f <;> rfl
@[simp] theorem raise_steps (f : FatalFault) : (s.raise f).steps = s.steps := by cases f <;> rfl
@[simp] theorem raise_unimplemented_status : (s.raise .unimplementedOperation).status = .faultUnimplemented := rfl
@[simp] theorem raise_unimplemented_faultText : (s.raise .unimplementedOperation).faultText = s.faultText := rfl
@[simp] theorem raise_invalid_status (l : Line) : (s.raise (.invalidInstruction l)).status = .faultInvalid := rfl
@[simp] theorem raise_invalid_faultText (l : Line) : (s.raise (.invalidInstruction l)).faultText = l := rfl

end Setters

/-- What `State.read` and `State.isMat` are in terms of the fields. -/
theorem read_eq (s : State) (x : Nat) : s.read x = s.mem.read x := rfl

theorem isMat_iff (s : State) (x : Nat) : s.isMat x = true ↔ x ∈ s.mat := List.contains_iff_mem

/-- Setting one bit of `V` sets that bit and no other. -/
@[simp] theorem mem_setMat (v : List Nat) (x y : Nat) : y ∈ setMat v x ↔ y = x ∨ y ∈ v := by
  induction v with
  | nil => simp [setMat]
  | cons z v ih =>
    by_cases h : x < z
    · simp [setMat, h]
    · by_cases h' : x = z
      · simp [setMat, h']
      · simp only [setMat, h, h', if_false, List.mem_cons, ih]
        tauto

/-- Setting a bit of `V` keeps its canonical form. -/
theorem matWf_setMat {v : List Nat} (hv : matWf v) {x : Nat} (hx : x < 1024) : matWf (setMat v x) := by
  refine ⟨?_, fun y hy => ?_⟩
  · have hr := hv.1
    clear hv
    induction v with
    | nil => simp [setMat]
    | cons z v ih =>
      obtain ⟨hz, hr'⟩ := List.pairwise_cons.mp hr
      by_cases h : x < z
      · simp only [setMat, h, if_true]
        refine List.pairwise_cons.mpr ⟨fun y hy => ?_, hr⟩
        rcases List.mem_cons.mp hy with rfl | hy
        · exact h
        · exact h.trans (hz y hy)
      · by_cases h' : x = z
        · simpa [setMat, h'] using hr
        · simp only [setMat, h, h', if_false]
          refine List.pairwise_cons.mpr ⟨fun y hy => ?_, ih hr'⟩
          rcases (mem_setMat v x y).mp hy with rfl | hy
          · omega
          · exact hz y hy
  · rcases (mem_setMat v x y).mp hy with rfl | hy
    · exact hx
    · exact hv.2 y hy

/-- A bit of `V` that is set stays as it is when it is set again. -/
theorem setMat_of_mem {v : List Nat} (hr : v.Pairwise (· < ·)) {x : Nat} (hx : x ∈ v) : setMat v x = v := by
  induction v with
  | nil => cases hx
  | cons z v ih =>
    obtain ⟨hz, hr'⟩ := List.pairwise_cons.mp hr
    rcases List.mem_cons.mp hx with rfl | hx
    · simp [setMat]
    · have := hz x hx
      simp [setMat, show ¬ x < z by omega, show x ≠ z by omega, ih hr' hx]

section Endings
variable (c0 : Addr) (s : State)

@[simp] theorem endCycle_a : (endCycle c0 s).a = s.a := by unfold endCycle; split <;> rfl
@[simp] theorem endCycle_c : (endCycle c0 s).c = s.c := by unfold endCycle; split <;> rfl
@[simp] theorem endCycle_cir : (endCycle c0 s).cir = s.cir := by unfold endCycle; split <;> rfl
@[simp] theorem endCycle_mem : (endCycle c0 s).mem = s.mem := by unfold endCycle; split <;> rfl
@[simp] theorem endCycle_mat : (endCycle c0 s).mat = s.mat := by unfold endCycle; split <;> rfl
@[simp] theorem endCycle_faultText : (endCycle c0 s).faultText = s.faultText := by unfold endCycle; split <;> rfl

/-- A completed cycle counts, and halts exactly when `C` is back where it was. -/
theorem endCycle_running (h : s.status = .running) :
    (endCycle c0 s).steps = s.steps + 1 ∧ (endCycle c0 s).status = if s.c = c0 then .haltedLoop else .running := by
  simp [endCycle, h]

/-- A cycle that raised ends as the raise left it. -/
theorem endCycle_raised (h : s.status ≠ .running) : endCycle c0 s = s := by simp [endCycle, h]

end Endings

end Sys2Proof.Machine
end

