-- ==== Sys2Proof/Laws/Memory.lean ====
section
/-!
SUPPORT. The laws of the store's contents: reading after writing, the canonical form kept by every operation, and equality
of canonical memories that read alike.
-/

namespace Sys2Proof.Machine

theorem Memory.read_filter_ne (m : Memory) (x y : Nat) (h : y ≠ x) :
    Memory.read (m.filter fun cell => cell.1 != x) y = m.read y := by
  induction m with
  | nil => rfl
  | cons p m ih =>
    obtain ⟨b, w⟩ := p
    by_cases hb : b = x
    · subst hb; simpa [Memory.read, h] using ih
    · simp [hb, Memory.read, ih]

theorem Memory.read_filter_self (m : Memory) (x : Nat) :
    Memory.read (m.filter fun cell => cell.1 != x) x = 0 := by
  induction m with
  | nil => rfl
  | cons p m ih =>
    obtain ⟨b, w⟩ := p
    by_cases hb : b = x
    · subst hb; simpa using ih
    · simp [hb, Memory.read, ih, Ne.symm hb]

theorem Memory.read_insert_ne (m : Memory) (x y : Nat) (v : Line) (h : y ≠ x) :
    (Memory.insert x v m).read y = m.read y := by
  induction m with
  | nil => simp [Memory.insert, Memory.read, h]
  | cons p m ih =>
    obtain ⟨b, w⟩ := p
    by_cases hb : x < b <;> simp [Memory.insert, Memory.read, hb, h, ih]

theorem Memory.read_insert_self (m : Memory) (x : Nat) (v : Line) (h : ∀ p ∈ m, p.1 ≠ x) :
    (Memory.insert x v m).read x = v := by
  induction m with
  | nil => simp [Memory.insert, Memory.read]
  | cons p m ih =>
    obtain ⟨b, w⟩ := p
    have hb : x ≠ b := fun e => h (b, w) (by simp) e.symm
    have ih := ih fun q hq => h q (by simp [hq])
    by_cases hlt : x < b <;> simp [Memory.insert, Memory.read, hlt, hb, ih]

/-- The two laws of a write (R39, R57): the line written reads back, and every other line is as it was. No form of the list
is assumed. -/
@[simp] theorem Memory.read_write (m : Memory) (x y : Nat) (v : Line) :
    (m.write x v).read y = if y = x then v else m.read y := by
  unfold Memory.write
  by_cases h : y = x <;> by_cases hv : v = 0 <;> simp only [h, hv, if_true, if_false]
  · exact Memory.read_filter_self m x
  · exact Memory.read_insert_self _ x v (by simp)
  · exact Memory.read_filter_ne m x y h
  · rw [Memory.read_insert_ne _ x y v h, Memory.read_filter_ne m x y h]

theorem Memory.mem_insert {m : Memory} {x : Nat} {v : Line} {p : Nat × Line} :
    p ∈ Memory.insert x v m ↔ p = (x, v) ∨ p ∈ m := by
  induction m with
  | nil => simp [Memory.insert]
  | cons q m ih =>
    by_cases hlt : x < q.1 <;> simp [Memory.insert, hlt, ih]
    tauto

theorem Memory.rising_insert {m : Memory} (x : Nat) (v : Line)
    (hm : m.Pairwise fun p q => p.1 < q.1) (hx : ∀ p ∈ m, p.1 ≠ x) :
    (Memory.insert x v m).Pairwise fun p q => p.1 < q.1 := by
  induction m with
  | nil => simp [Memory.insert]
  | cons q m ih =>
    obtain ⟨b, w⟩ := q
    obtain ⟨hq, hm'⟩ := List.pairwise_cons.mp hm
    have hb : b ≠ x := hx (b, w) (by simp)
    by_cases hlt : x < b
    · simp only [Memory.insert, hlt, if_true]
      refine List.pairwise_cons.mpr ⟨fun p hp => ?_, hm⟩
      rcases List.mem_cons.mp hp with rfl | hp
      · exact hlt
      · exact hlt.trans (hq p hp)
    · simp only [Memory.insert, hlt, if_false]
      refine List.pairwise_cons.mpr ⟨fun p hp => ?_, ih hm' fun p hp => hx p (by simp [hp])⟩
      rcases Memory.mem_insert.mp hp with rfl | hp
      · show b < x
        omega
      · exact hq p hp

/-- A write keeps the canonical form. -/
theorem Memory.wf_write {m : Memory} (hm : m.wf) {x : Nat} (hx : x < 1024) (v : Line) : (m.write x v).wf := by
  obtain ⟨hr, hc⟩ := hm
  have hr' : (m.filter fun cell => cell.1 != x).Pairwise fun p q => p.1 < q.1 := hr.filter _
  unfold Memory.write
  by_cases hv : v = 0
  · simp only [hv, if_true]
    exact ⟨hr', fun p hp => hc p (List.mem_filter.mp hp).1⟩
  · simp only [hv, if_false]
    refine ⟨Memory.rising_insert x v hr' (by simp), fun p hp => ?_⟩
    rcases Memory.mem_insert.mp hp with rfl | hp
    · exact ⟨hx, hv⟩
    · exact hc p (List.mem_filter.mp hp).1

theorem Memory.wf_nil : Memory.wf [] := by decide

theorem Memory.wf_tail {p : Nat × Line} {m : Memory} (h : Memory.wf (p :: m)) : m.wf :=
  ⟨(List.pairwise_cons.mp h.1).2, fun q hq => h.2 q (by simp [hq])⟩

/-- In a canonical memory an address at or below the first one is not in the tail. -/
theorem Memory.read_tail_zero {p : Nat × Line} {m : Memory} (h : Memory.wf (p :: m)) {x : Nat} (hx : x ≤ p.1) :
    m.read x = 0 := by
  have hlt := (List.pairwise_cons.mp h.1).1
  clear h
  induction m with
  | nil => rfl
  | cons q m ih =>
    obtain ⟨b, w⟩ := q
    have : p.1 < b := hlt (b, w) (by simp)
    have hne : x ≠ b := by omega
    simpa [Memory.read, hne] using ih fun r hr => hlt r (by simp [hr])

/-- Nothing is held outside the address space. -/
theorem Memory.read_outside {m : Memory} (h : m.wf) {x : Nat} (hx : 1024 ≤ x) : m.read x = 0 := by
  induction m with
  | nil => rfl
  | cons p m ih =>
    obtain ⟨b, w⟩ := p
    have hb : b < 1024 := (h.2 (b, w) (by simp)).1
    have hne : x ≠ b := by omega
    simpa [Memory.read, hne] using ih (Memory.wf_tail h)

section Reads
variable (s : State)

@[simp] theorem read_setA (v : Acc) (x : Nat) : (s.setA v).read x = s.read x := rfl
@[simp] theorem read_setC (v : Addr) (x : Nat) : (s.setC v).read x = s.read x := rfl
@[simp] theorem read_setCir (v : Line) (x : Nat) : (s.setCir v).read x = s.read x := rfl
@[simp] theorem read_materialize (y x : Nat) : (s.materialize y).read x = s.read x := rfl
@[simp] theorem read_writeLine (y : Nat) (v : Line) (x : Nat) :
    (s.writeLine y v).read x = if x = y then v else s.read x := Memory.read_write ..
@[simp] theorem read_raise (f : FatalFault) (x : Nat) : (s.raise f).read x = s.read x := by cases f <;> rfl
@[simp] theorem read_endCycle (c0 : Addr) (x : Nat) : (endCycle c0 s).read x = s.read x := by simp [read_eq]

@[simp] theorem isMat_setA (v : Acc) (x : Nat) : (s.setA v).isMat x = s.isMat x := rfl
@[simp] theorem isMat_setC (v : Addr) (x : Nat) : (s.setC v).isMat x = s.isMat x := rfl
@[simp] theorem isMat_setCir (v : Line) (x : Nat) : (s.setCir v).isMat x = s.isMat x := rfl
@[simp] theorem isMat_materialize (y x : Nat) :
    (s.materialize y).isMat x = (s.isMat x || decide (x = y)) := by
  rw [Bool.eq_iff_iff, isMat_iff]
  simp [isMat_iff, or_comm]
@[simp] theorem isMat_writeLine (y : Nat) (v : Line) (x : Nat) :
    (s.writeLine y v).isMat x = (s.isMat x || decide (x = y)) := by
  rw [Bool.eq_iff_iff, isMat_iff]
  simp [isMat_iff, or_comm]
@[simp] theorem isMat_raise (f : FatalFault) (x : Nat) : (s.raise f).isMat x = s.isMat x := by cases f <;> rfl
@[simp] theorem isMat_endCycle (c0 : Addr) (x : Nat) : (endCycle c0 s).isMat x = s.isMat x := by simp [State.isMat]

end Reads

end Sys2Proof.Machine
end

