-- ==== Sys2Proof/Laws/Ops.lean ====
section
/-!
SUPPORT. One lemma per shared operation, saying everything it does: the reads and writes of several lines, the operand
forms, fetch; and that each keeps the store's invariant. Proofs cite these and unfold no operation.
-/

namespace Sys2Proof.Machine

theorem wrap_addr (x : Addr) : wrap x.toNat = x.toNat := Nat.mod_eq_of_lt x.isLt

theorem wrap_lt (n : Nat) : wrap n < 1024 := Nat.mod_lt _ (by decide)

theorem nextAddr_lt (x : Addr) : nextAddr x < 1024 := Nat.mod_lt _ (by decide)

theorem addr_lt (x : Addr) : x.toNat < 1024 := x.isLt

/-- A pair's two lines are at different addresses. -/
theorem nextAddr_ne (x : Addr) : nextAddr x ≠ x.toNat := by
  have := addr_lt x
  unfold nextAddr
  omega

/-- `MemRead` leaves every field but `V` alone. -/
theorem memRead_fields (s : State) (addr n : Nat) :
    (s.memRead addr n).2.a = s.a ∧ (s.memRead addr n).2.c = s.c ∧ (s.memRead addr n).2.cir = s.cir ∧
      (s.memRead addr n).2.mem = s.mem ∧ (s.memRead addr n).2.status = s.status ∧
      (s.memRead addr n).2.faultText = s.faultText ∧ (s.memRead addr n).2.steps = s.steps := by
  induction n generalizing s addr with
  | zero => exact ⟨rfl, rfl, rfl, rfl, rfl, rfl, rfl⟩
  | succ n ih => simpa [State.memRead] using ih (s.materialize (wrap addr)) (addr + 1)

/-- `s_data` (R99) is the line at `addr`. -/
@[simp] theorem sData_fst (s : State) (addr : Addr) : (sData s addr).1 = s.read addr.toNat := by
  simp [sData, State.memRead, wrap_addr]

/-- The read of `s_data` materializes `addr`. -/
@[simp] theorem sData_snd (s : State) (addr : Addr) : (sData s addr).2 = s.materialize addr.toNat := by
  simp [sData, State.memRead, wrap_addr]

/-- `s_pair_data` (R100) is the value of the pair. -/
theorem sPairData_toNat (s : State) (addr : Addr) : (sPairData s addr).1.toNat = pairAt s addr := by
  have h1 := (s.read addr.toNat).isLt
  have h2 := (s.read (nextAddr addr)).isLt
  simp only [sPairData, State.memRead, wrap_addr, read_materialize, BitVec.toNat_ofNat]
  change ((s.read addr.toNat).toNat + 2 ^ 20 * ((s.read (nextAddr addr)).toNat + 2 ^ 20 * 0)) % 2 ^ 40 = _
  unfold pairAt
  omega

/-- The same value as a bit vector. -/
theorem sPairData_fst (s : State) (addr : Addr) : (sPairData s addr).1 = BitVec.ofNat 40 (pairAt s addr) := by
  rw [← sPairData_toNat, BitVec.ofNat_toNat, BitVec.setWidth_eq]

/-- The read of `s_pair_data` materializes both addresses. -/
@[simp] theorem sPairData_snd (s : State) (addr : Addr) :
    (sPairData s addr).2 = (s.materialize addr.toNat).materialize (nextAddr addr) := by
  simp only [sPairData, State.memRead, wrap_addr]
  rfl

theorem pairAt_lt (s : State) (addr : Addr) : pairAt s addr < 2 ^ 40 := by
  rw [← sPairData_toNat]
  exact (sPairData s addr).1.isLt

/-- STA's write (R120): the low line at `addr`, the high line after it. -/
@[simp] theorem storePair_eq (s : State) (addr : Addr) (v : Acc) :
    storePair s addr v = (s.writeLine addr.toNat (lowLine v)).writeLine (nextAddr addr) (highLine v) := by
  have h1 : BitVec.ofNat 20 v.toNat = lowLine v := by
    apply BitVec.eq_of_toNat_eq
    simp [lowLine]
  have h2 : BitVec.ofNat 20 (v.toNat / 2 ^ 20) = highLine v := by
    apply BitVec.eq_of_toNat_eq
    simp [highLine, Nat.shiftRight_eq_div_pow]
  simp only [storePair, State.memWrite, wrap_addr, h1, h2]
  rfl

/-- An accumulator value is its two lines. -/
theorem lines_of_acc (v : Acc) : (lowLine v).toNat + 2 ^ 20 * (highLine v).toNat = v.toNat := by
  have := v.isLt
  simp only [lowLine, highLine, BitVec.extractLsb'_toNat, Nat.shiftRight_eq_div_pow]
  omega

/-- The branch value is the low ten bits (R116, R117). -/
theorem branchValue_toNat (l : Line) : (branchValue l).toNat = l.toNat % 1024 := by
  simp [branchValue]

/-- Bit 39 is set exactly for the values of R116. -/
theorem signBit_iff (v : Acc) : signBit v = true ↔ 2 ^ 39 ≤ v.toNat := by
  have := v.isLt
  simp only [signBit, BitVec.getLsbD, Nat.testBit_eq_decide_div_mod_eq, decide_eq_true_eq]
  omega

/-- The address fetched from is the one after `C`. -/
theorem toNat_add_one (c : Addr) : (c + 1).toNat = nextAddr c := by
  rw [BitVec.toNat_add]
  rfl

/-- Everything fetch does (R97). -/
theorem fetch_eq (s : State) :
    fetch s = ((s.setC (s.c + 1)).materialize (nextAddr s.c)).setCir (s.read (nextAddr s.c)) := by
  simp only [fetch, State.memRead, setC_c, wrap_addr, read_setC, Nat.mul_zero, Nat.add_zero,
    BitVec.ofNat_toNat, BitVec.setWidth_eq, ← toNat_add_one, wrap_addr]

section Fetch
variable (s : State)

@[simp] theorem fetch_a : (fetch s).a = s.a := by simp [fetch_eq]
@[simp] theorem fetch_c : (fetch s).c = s.c + 1 := by simp [fetch_eq]
@[simp] theorem fetch_cir : (fetch s).cir = s.read (nextAddr s.c) := by simp [fetch_eq]
@[simp] theorem fetch_mem : (fetch s).mem = s.mem := by simp [fetch_eq]
@[simp] theorem fetch_status : (fetch s).status = s.status := by simp [fetch_eq]
@[simp] theorem fetch_faultText : (fetch s).faultText = s.faultText := by simp [fetch_eq]
@[simp] theorem fetch_steps : (fetch s).steps = s.steps := by simp [fetch_eq]
@[simp] theorem fetch_read (x : Nat) : (fetch s).read x = s.read x := by simp [fetch_eq]
@[simp] theorem fetch_isMat (x : Nat) :
    (fetch s).isMat x = (s.isMat x || decide (x = nextAddr s.c)) := by simp [fetch_eq]

end Fetch

/-- Fetch moves `C`: a cycle can end where it began only if a branch wrote `C` (R105). -/
theorem c_add_one_ne (c : Addr) : c + 1 ≠ c := by
  intro h
  exact nextAddr_ne c ((toNat_add_one c).symm.trans (congrArg BitVec.toNat h))

/-- The invariant of the store speaks of `M` and `V` only. -/
theorem StoreInv.congr {s t : State} (h : StoreInv s) (hm : t.mem = s.mem) (hv : t.mat = s.mat) : StoreInv t where
  memWf := hm ▸ h.memWf
  matRising := hv ▸ h.matRising
  zeroUnlessMat x hx := by
    have := h.zeroUnlessMat x (by simpa [State.isMat, hv] using hx)
    simpa [read_eq, hm] using this

theorem StoreInv.materialize {s : State} (h : StoreInv s) {x : Nat} (hx : x < 1024) : StoreInv (s.materialize x) where
  memWf := h.memWf
  matRising := matWf_setMat h.matRising hx
  zeroUnlessMat y hy := by
    rw [isMat_materialize, Bool.or_eq_false_iff] at hy
    exact h.zeroUnlessMat y hy.1

theorem StoreInv.writeLine {s : State} (h : StoreInv s) {x : Nat} (hx : x < 1024) (v : Line) :
    StoreInv (s.writeLine x v) where
  memWf := Memory.wf_write h.memWf hx v
  matRising := matWf_setMat h.matRising hx
  zeroUnlessMat y hy := by
    simp only [isMat_writeLine, Bool.or_eq_false_iff, decide_eq_false_iff_not] at hy
    simpa [hy.2] using h.zeroUnlessMat y hy.1

theorem StoreInv.memRead {s : State} (h : StoreInv s) (addr n : Nat) : StoreInv (s.memRead addr n).2 := by
  induction n generalizing s addr with
  | zero => exact h
  | succ n ih => exact ih (h.materialize (wrap_lt _)) _

theorem StoreInv.memWrite {s : State} (h : StoreInv s) (addr n v : Nat) : StoreInv (s.memWrite addr n v) := by
  induction n generalizing s addr v with
  | zero => exact h
  | succ n ih => exact ih (h.writeLine (wrap_lt _) _) _ _

/-- Every memory operation keeps the canonical form. -/
theorem memRead_wf (s : State) (addr n : Nat) (h : s.mem.wf) : (s.memRead addr n).2.mem.wf := by
  rw [(memRead_fields s addr n).2.2.2.1]
  exact h

theorem memWrite_wf (s : State) (addr n v : Nat) (h : s.mem.wf) : (s.memWrite addr n v).mem.wf := by
  induction n generalizing s addr v with
  | zero => exact h
  | succ n ih => exact ih _ _ _ (Memory.wf_write h (wrap_lt _) _)

theorem reset_mem_wf : State.reset.mem.wf := Memory.wf_nil

end Sys2Proof.Machine
end

