-- ==== Sys2Proof/Laws/Exec.lean ====
section
/-!
SUPPORT. What each meaning answers, over the shared operations, and what a step is made of. Proofs about instructions cite
these equations and unfold no meaning.
-/

namespace Sys2Proof.Machine

section Meanings
variable (s : State) (addr : Addr)

@[simp] theorem exec_cba : exec (.cba addr) s = .next (if signBit s.a then s.materialize addr.toNat
    else (s.materialize addr.toNat).setC (branchValue (s.read addr.toNat))) := by
  simp [exec, execCba]

@[simp] theorem exec_ubr :
    exec (.ubr addr) s = .next ((s.materialize addr.toNat).setC (branchValue (s.read addr.toNat))) := by
  simp [exec, execUbr]

@[simp] theorem exec_sta : exec (.sta addr) s = .next
    (((s.writeLine addr.toNat (lowLine s.a)).writeLine (nextAddr addr) (highLine s.a)).setCir (lowLine s.a)) := by
  simp [exec, execSta]

@[simp] theorem exec_lda : exec (.lda addr) s = .next
    (((s.materialize addr.toNat).materialize (nextAddr addr)).setA (sPairData s addr).1) := by
  simp [exec, execLda]

@[simp] theorem exec_clr : exec (.clr addr) s = .next (s.setA 0) := rfl

@[simp] theorem exec_add : exec (.add addr) s = .next
    (((s.materialize addr.toNat).materialize (nextAddr addr)).setA (accAdd s.a (sPairData s addr).1)) := by
  simp [exec, execAdd]

@[simp] theorem exec_sub : exec (.sub addr) s = .next
    (((s.materialize addr.toNat).materialize (nextAddr addr)).setA (accSub s.a (sPairData s addr).1)) := by
  simp [exec, execSub]

@[simp] theorem exec_neg : exec (.neg addr) s = .next (s.raise .unimplementedOperation) := rfl

@[simp] theorem exec_dbl : exec (.dbl addr) s = .next
    (((s.materialize addr.toNat).materialize (nextAddr addr)).setA (accDouble (sPairData s addr).1)) := by
  simp [exec, execDbl]

@[simp] theorem exec_nop : exec (.nop addr) s = .next s := rfl

@[simp] theorem exec_invalid (c : FnCode) : exec (.invalid addr c) s = .next (s.raise (.invalidInstruction s.cir)) := rfl

end Meanings

/-- Every instruction answers a next state, from every state. -/
theorem exec_answers (i : Instr) (s : State) : ∃ t, exec i s = .next t := by
  cases i <;> simp

/-- Only NEG and INVALID touch `STATUS`, `FAULT_TEXT` (by raising), and nothing executed touches `STEPS` (R103). -/
theorem exec_engine {i : Instr} {s t : State} (h : exec i s = .next t) :
    t.steps = s.steps ∧
      ((∃ x, i = .neg x) ∧ t = s.raise .unimplementedOperation ∨
        (∃ x c, i = .invalid x c) ∧ t = s.raise (.invalidInstruction s.cir) ∨
        t.status = s.status ∧ t.faultText = s.faultText) := by
  cases i <;> simp only [exec_cba, exec_ubr, exec_sta, exec_lda, exec_clr, exec_add, exec_sub, exec_neg, exec_dbl, exec_nop,
    exec_invalid, Host.Outcome.next.injEq] at h <;> subst h <;> first | (split <;> simp) | simp

/-- Executing keeps the store's invariant. -/
theorem exec_storeInv {i : Instr} {s t : State} (h : exec i s = .next t) (hs : StoreInv s) : StoreInv t := by
  cases i <;> simp only [exec_cba, exec_ubr, exec_sta, exec_lda, exec_clr, exec_add, exec_sub, exec_neg, exec_dbl, exec_nop,
    exec_invalid, Host.Outcome.next.injEq] at h <;> subst h
  case cba x =>
    split
    · exact hs.materialize (addr_lt x)
    · exact (hs.materialize (addr_lt x)).congr rfl rfl
  case ubr x => exact (hs.materialize (addr_lt x)).congr rfl rfl
  case sta x => exact ((hs.writeLine (addr_lt x) _).writeLine (nextAddr_lt x) _).congr rfl rfl
  case clr | nop | neg | invalid => exact hs.congr rfl rfl
  all_goals exact ((hs.materialize (addr_lt _)).materialize (nextAddr_lt _)).congr rfl rfl

theorem StoreInv.fetch {s : State} (h : StoreInv s) : StoreInv (fetch s) :=
  (h.materialize (nextAddr_lt s.c)).congr (fetch_mem s) (by simp [fetch_eq])

/-- What a step that answers a next state is made of: it was Running, the fetched line's instruction answered, and the cycle
ended (R102). -/
theorem stepWith_cases {fc : FunctionCodes} {s t : State} (h : stepWith fc s = .next t) :
    s.status = .running ∧
      ∃ u, exec (decode fc (s.read (nextAddr s.c))) (fetch s) = .next u ∧ t = endCycle s.c u := by
  unfold stepWith at h
  split at h
  · rename_i hr
    obtain ⟨u, hu⟩ := exec_answers (decode fc (fetch s).cir) (fetch s)
    rw [hu] at h
    injection h with h
    exact ⟨hr, u, by rw [← hu, fetch_cir], h.symm⟩
  · cases h

/-- The other way round: a Running machine's step, from what its instruction answers. -/
theorem stepWith_of_exec {fc : FunctionCodes} {s u : State} (hr : s.status = .running)
    (hu : exec (decode fc (s.read (nextAddr s.c))) (fetch s) = .next u) :
    stepWith fc s = .next (endCycle s.c u) := by
  simp [stepWith, hr, hu]

end Sys2Proof.Machine
end

