-- ==== Sys2Proof/Laws/Host.lean ====
section
/-!
SUPPORT. What each operation of the host's interface can do: `set`, `load`, `get`, the run loop, and the block as a whole.
-/

namespace Sys2Proof.Machine

/-! ## `set` and `load` -/

/-- `set` answers the written state or is refused as Malformed Field. -/
theorem setText_cases (al : Alphabet) (address value : List Char) (s : State) :
    (∃ x v, setText al address value s = .next (setNumeral s x v)) ∨
      setText al address value s = .refused .malformedField := by
  unfold setText
  split
  · exact .inl ⟨_, _, rfl⟩
  · exact .inr rfl

theorem writeChunks_fields (s : State) (base k : Nat) (v : Numeral) :
    (writeChunks s base k v).a = s.a ∧ (writeChunks s base k v).c = s.c ∧ (writeChunks s base k v).cir = s.cir ∧
      (writeChunks s base k v).status = s.status ∧ (writeChunks s base k v).faultText = s.faultText ∧
      (writeChunks s base k v).steps = s.steps := by
  induction k generalizing s base v with
  | zero => exact ⟨rfl, rfl, rfl, rfl, rfl, rfl⟩
  | succ k ih => exact ih ..

theorem StoreInv.writeChunks {s : State} (h : StoreInv s) (base k : Nat) (v : Numeral) :
    StoreInv (writeChunks s base k v) := by
  induction k generalizing s base v with
  | zero => exact h
  | succ k ih => exact ih (h.writeLine (wrap_lt _) _) ..

/-- `load` writes the store only. -/
theorem loadPairs_fields (al : Alphabet) (pairs : List (List Char × List Char)) (s : State) :
    let t := (loadPairs al pairs s).1
    t.a = s.a ∧ t.c = s.c ∧ t.cir = s.cir ∧ t.status = s.status ∧ t.faultText = s.faultText ∧ t.steps = s.steps := by
  induction pairs generalizing s with
  | nil => exact ⟨rfl, rfl, rfl, rfl, rfl, rfl⟩
  | cons p pairs ih =>
    obtain ⟨address, value⟩ := p
    obtain ⟨x, v, h⟩ | h := setText_cases al address value s
    · obtain ⟨h1, h2, h3, h4, h5, h6⟩ := writeChunks_fields s (dec x) ((v.length + 3) / 4) v
      obtain ⟨i1, i2, i3, i4, i5, i6⟩ := ih (setNumeral s x v)
      simp only [loadPairs, h]
      exact ⟨i1.trans h1, i2.trans h2, i3.trans h3, i4.trans h4, i5.trans h5, i6.trans h6⟩
    · simp [loadPairs, h]

theorem StoreInv.loadPairs {s : State} (h : StoreInv s) (al : Alphabet) (pairs : List (List Char × List Char)) :
    StoreInv (loadPairs al pairs s).1 := by
  induction pairs generalizing s with
  | nil => exact h
  | cons p pairs ih =>
    obtain ⟨address, value⟩ := p
    obtain ⟨x, v, hs⟩ | hs := setText_cases al address value s <;> simp only [Machine.loadPairs, hs]
    · exact ih (h.writeChunks ..)
    · exact h

/-! ## `get` -/

/-- The text form leaves the state `MemRead` leaves. -/
theorem getText_snd (s : State) (addr n : Nat) : (getText s addr n).2 = (s.memRead addr n).2 := by
  induction n generalizing s addr with
  | zero => rfl
  | succ n ih => exact ih ..

/-- A read clears no materialized bit. -/
theorem memRead_isMat_mono (s : State) (addr n x : Nat) (h : s.isMat x = true) : (s.memRead addr n).2.isMat x = true := by
  induction n generalizing s addr with
  | zero => exact h
  | succ n ih => exact ih _ _ (by simp [h])

/-! ## The run loop -/

theorem mayStep_iff (n : Nat) (s : State) :
    mayStep n s = true ↔ s.status = .running ∧ (n = 0 ∨ s.steps < n) := by simp [mayStep]

theorem mayStep_eq_false (n : Nat) (s : State) :
    mayStep n s = false ↔ s.status ≠ .running ∨ (n ≠ 0 ∧ n ≤ s.steps) := by
  rw [Bool.eq_false_iff, Ne, mayStep_iff]; by_cases h : s.status = .running <;> simp [h]

theorem beforeFirstStep_iff (s : State) : beforeFirstStep s = true ↔ s.status = .running ∧ s.steps = 0 := by
  simp [beforeFirstStep]

/-- A Running machine has a next state. -/
theorem stepWith_running (fc : FunctionCodes) {s : State} (h : s.status = .running) : ∃ t, stepWith fc s = .next t := by
  obtain ⟨u, hu⟩ := exec_answers (decode fc (s.read (nextAddr s.c))) (fetch s)
  exact ⟨_, stepWith_of_exec h hu⟩

/-- A cycle counts, or leaves a fatal fault and does not. -/
theorem stepWith_steps {fc : FunctionCodes} {s t : State} (h : stepWith fc s = .next t) :
    (t.steps = s.steps + 1 ∧ FaultFree t) ∨ (t.steps = s.steps ∧ ¬ FaultFree t) := by
  obtain ⟨hr, u, hu, rfl⟩ := stepWith_cases h
  obtain ⟨hs, hh⟩ := exec_engine hu
  rw [fetch_steps] at hs
  rcases hh with ⟨_, rfl⟩ | ⟨_, rfl⟩ | ⟨h1, _⟩
  · right; rw [endCycle_raised _ _ (by simp)]; exact ⟨hs, by simp [FaultFree]⟩
  · right; rw [endCycle_raised _ _ (by simp)]; exact ⟨hs, by simp [FaultFree]⟩
  · left
    have h2 := endCycle_running s.c u (by rw [h1, fetch_status, hr])
    rw [FaultFree, h2.1, h2.2, hs]
    exact ⟨rfl, by split <;> simp⟩

theorem runFor_stop {fc : FunctionCodes} {n fuel : Nat} {s : State} (h : mayStep n s = false) :
    runFor fc n fuel s = s := by
  cases fuel <;> simp [runFor, h]

theorem runFor_next {fc : FunctionCodes} {n : Nat} {s t : State} (h : mayStep n s = true)
    (ht : stepWith fc s = .next t) (fuel : Nat) : runFor fc n (fuel + 1) s = runFor fc n fuel t := by
  simp [runFor, h, ht]

theorem runFor_add (fc : FunctionCodes) (n j k : Nat) (s : State) :
    runFor fc n (j + k) s = runFor fc n k (runFor fc n j s) := by
  induction j generalizing s with
  | zero => simp [runFor]
  | succ j ih =>
    rw [Nat.succ_add]
    cases hm : mayStep n s with
    | true =>
      obtain ⟨t, ht⟩ := stepWith_running fc ((mayStep_iff n s).mp hm).1
      rw [runFor_next hm ht, runFor_next hm ht, ih]
    | false => rw [runFor_stop hm, runFor_stop hm, runFor_stop hm]

/-- A call of `Run` takes at most its own number of cycles. -/
theorem runCall_eq (fc : FunctionCodes) (n : Nat) (s : State) : runCall fc n s = runFor fc (s.steps + n) n s := by
  rw [runCall, runBounded, Nat.add_sub_cancel_left]

/-- A call that may run a cycle runs it and leaves the rest of its cycles to a call from the next state. -/
theorem runCall_next {fc : FunctionCodes} {s t : State} (ht : stepWith fc s = .next t) (n : Nat) :
    runCall fc (n + 1) s = runCall fc n t := by
  have hm : mayStep (s.steps + (n + 1)) s = true := (mayStep_iff _ _).mpr ⟨(stepWith_cases ht).1, .inr (by omega)⟩
  rw [runCall_eq, runFor_next hm ht, runCall_eq]
  rcases stepWith_steps ht with ⟨h, _⟩ | ⟨_, h⟩
  · rw [h, Nat.add_right_comm, Nat.add_assoc]
  · have hs (k : Nat) : mayStep k t = false := (mayStep_eq_false _ _).mpr (.inl fun hr => h (.inl hr))
    rw [runFor_stop (hs _), runFor_stop (hs _)]

/-- A call in a terminal state returns at once (R109). -/
theorem runCall_stop {fc : FunctionCodes} {s : State} (h : s.status ≠ .running) (n : Nat) : runCall fc n s = s := by
  rw [runCall_eq, runFor_stop ((mayStep_eq_false _ _).mpr (.inl h))]

/-! ## The block -/

/-- Everything an operation of the block can do: reset it, leave it, read it in the window of `get`, load it in the window of
`load` (a `set` is a `load` of one pair), or run a cycle of it while it is fit to run. -/
theorem hostApply_cases (p : Params) (op : HostOp) (b : Block) :
    (op = .reset ∧ (hostApply p op b).block = .reset) ∨
    (hostApply p op b).block = b ∨
    (∃ addr n, (op = .getText addr n ∨ op = .getInt addr n) ∧ getWindow p.maxSteps b.state = true ∧
      (hostApply p op b).block = { b with state := (b.state.memRead addr n).2 }) ∨
    (∃ pairs, beforeFirstStep b.state = true ∧ (op = .load pairs ∨ ∃ x v, op = .set x v ∧ pairs = [(x, v)]) ∧
      (hostApply p op b).block.state = (loadPairs p.alphabet pairs b.state).1 ∧
      (b.loadRefused = true → (hostApply p op b).block.loadRefused = true)) ∨
    (op = .step ∧ b.loadRefused = false ∧
      ∃ t, stepWith p.fc b.state = .next t ∧ (hostApply p op b).block = { b with state := t }) := by
  cases op with
  | reset => exact .inl ⟨rfl, rfl⟩
  | dump => exact .inr (.inl rfl)
  | set address value =>
    by_cases hw : beforeFirstStep b.state = true
    · obtain ⟨x, v, h⟩ | h := setText_cases p.alphabet address value b.state
      · exact .inr (.inr (.inr (.inl ⟨[(address, value)], hw, .inr ⟨_, _, rfl, rfl⟩, by simp [hostApply, hw, h, loadPairs],
          by simp [hostApply, hw, h]⟩)))
      · exact .inr (.inl (by simp [hostApply, hw, h]))
    · exact .inr (.inl (by simp [hostApply, hw]))
  | load pairs =>
    by_cases hw : beforeFirstStep b.state = true
    · refine .inr (.inr (.inr (.inl ⟨pairs, hw, .inl rfl, ?_, ?_⟩))) <;>
        simp only [hostApply, hw, if_true, loadResponse] <;> split <;> simp_all
    · exact .inr (.inl (by simp [hostApply, hw]))
  | getText addr n =>
    by_cases hw : getWindow p.maxSteps b.state = true
    · exact .inr (.inr (.inl ⟨addr, n, .inl rfl, hw, by simp [hostApply, hw, getText_snd]⟩))
    · exact .inr (.inl (by simp [hostApply, hw]))
  | getInt addr n =>
    by_cases hw : getWindow p.maxSteps b.state = true
    · exact .inr (.inr (.inl ⟨addr, n, .inr rfl, hw, by simp [hostApply, hw, getInt]⟩))
    · exact .inr (.inl (by simp [hostApply, hw]))
  | step =>
    cases hl : b.loadRefused with
    | true => exact .inr (.inl (by simp [hostApply, hl]))
    | false =>
      cases h : stepWith p.fc b.state with
      | next t => exact .inr (.inr (.inr (.inr ⟨rfl, rfl, t, rfl, by simp [hostApply, hl, h]⟩)))
      | fault f => exact .inr (.inl (by simp [hostApply, hl, h]))
      | refused r => exact .inr (.inl (by simp [hostApply, hl, h]))

end Sys2Proof.Machine
end

