-- ==== Sys2Proof/Laws/PerInstr.lean ====
section
/-!
SUPPORT. Statements about every instruction as syntax, one lemma per constructor of `Instr`: the two fields of its line
are its own operand and its own function code (spec/30_encoding.md R62, R76).
-/

namespace Sys2Proof.Laws.Fields

/-- The line of an instruction holds its address in bits 9:0 and its function code in bits 19:10, under any codes. -/
def Statement (i : Instr) : Prop :=
  ∀ fc : FunctionCodes, lineAddr (encode fc i) = i.addr ∧ lineFc (encode fc i) = i.fnCode fc

theorem of_mkLine (i : Instr) : Statement i := fun fc =>
  ⟨lineAddr_mkLine i.addr (i.fnCode fc), lineFc_mkLine i.addr (i.fnCode fc)⟩

theorem cba (addr : Addr) : Statement (.cba addr) := of_mkLine _
theorem ubr (addr : Addr) : Statement (.ubr addr) := of_mkLine _
theorem sta (addr : Addr) : Statement (.sta addr) := of_mkLine _
theorem lda (addr : Addr) : Statement (.lda addr) := of_mkLine _
theorem clr (addr : Addr) : Statement (.clr addr) := of_mkLine _
theorem add (addr : Addr) : Statement (.add addr) := of_mkLine _
theorem sub (addr : Addr) : Statement (.sub addr) := of_mkLine _
theorem neg (addr : Addr) : Statement (.neg addr) := of_mkLine _
theorem dbl (addr : Addr) : Statement (.dbl addr) := of_mkLine _
theorem nop (addr : Addr) : Statement (.nop addr) := of_mkLine _
theorem invalid (addr : Addr) (c : FnCode) : Statement (.invalid addr c) := of_mkLine _

end Sys2Proof.Laws.Fields
end

