-- ==== Sys2Proof/Tests/Slice0.lean ====
section
/-!
SUPPORT. Tests. Expected results are taken from spec/95_test_vectors.md (named by its section) or written out by hand from an
encoding of spec/30_encoding.md; the last part holds a named witness for the hypotheses of each statement.
-/

namespace Sys2Proof.Tests

open Sys2Proof Sys2Proof.Machine

/-! ## Well-formedness -/

theorem test_invalid_with_assigned_code_is_ill_formed : (Instr.invalid 0 640).wf fcRef = false := by decide
theorem test_invalid_with_free_code_is_well_formed : (Instr.invalid 5 528).wf fcRef = true := by decide

/-! ## Decoding: words written out bit by bit, `fc` (bits 19:10) then `addr` (bits 9:0), from R62 and R64 -/

theorem test_decode_cba : decode fcRef 0b10100000000001100100 = .cba 100 := by decide
theorem test_decode_ubr : decode fcRef 0b10110000000001100100 = .ubr 100 := by decide
theorem test_decode_sta : decode fcRef 0b00101000000011001000 = .sta 200 := by decide
theorem test_decode_lda : decode fcRef 0b00000100000100101100 = .lda 300 := by decide
theorem test_decode_clr : decode fcRef 0b00100100001100001001 = .clr 777 := by decide
theorem test_decode_add : decode fcRef 0b00110100000100101100 = .add 300 := by decide
theorem test_decode_sub : decode fcRef 0b01100100000100101100 = .sub 300 := by decide
theorem test_decode_neg : decode fcRef 0b01101100000100101100 = .neg 300 := by decide
theorem test_decode_dbl : decode fcRef 0b01111100000100101100 = .dbl 300 := by decide
theorem test_decode_nop : decode fcRef 0b11111111110100101100 = .nop 300 := by decide
theorem test_decode_invalid : decode fcRef 0b10000100000000000101 = .invalid 5 528 := by decide
/-- Section 4: neighbours of assigned codes are INVALID. -/
theorem test_decode_neighbours :
    decode fcRef 0x04400 = .invalid 0 17 ∧ decode fcRef 0xFFBFF = .invalid 1023 1022 := by decide
theorem test_decode_by_text : decodeByText fcRef 0xB0001 = .ubr 1 ∧ decodeByText fcRef 0x84005 = .invalid 5 528 := by decide
/-- R74: "load from address 10" is the line `R/T/`. -/
theorem test_encode_lda_text : printText alphabetRef (enc20 (encode fcRef (.lda 10)).toNat) = ['R', '/', 'T', '/'] := by
  decide

/-! ## The codec (section 2) -/

theorem test_enc40 : printText alphabetRef (enc40 0xABCDE12345) = ['S', 'G', '½', '@', 'V', 'I', 'K', 'Y'] := by decide
theorem test_enc_truncates : enc10 1025 = [1, 0] ∧ enc20 (2 ^ 20 + 5) = [5, 0, 0, 0] ∧ enc40 (2 ^ 20) = [0, 0, 0, 0, 1, 0, 0, 0] := by
  decide
theorem test_dec_any_length : (parseText alphabetRef ['E', '/', '@', '/', 'A']).map dec = some 3147777 := by decide
theorem test_lower_case_is_malformed : readField alphabetRef 8 ['E', '/', '/', 'e'] = none := by decide

/-! ## The store through the host (section 3) -/

/-- Row 1, source property S2: a two-line value at 1023 wraps to 0. -/
theorem test_set_wraps : (match setText alphabetRef ['£', '£'] ['E', '/', '/', '/', '@', '/', '/', '/'] .reset with
    | .next t => (t.mem, t.mat) | _ => ([], [])) = ([(0, 2), (1023, 1)], [0, 1023]) := by decide
/-- Rows 4 to 6: a refused `set`. -/
theorem test_set_refuses : (match setText alphabetRef ['E', '/', '@'] ['E'] .reset with
    | .refused r => some r | _ => none) = some .malformedField := by decide
/-- Source property S3: the zero line, and materialization. -/
theorem test_get_materializes :
    (getText .reset 500 1).1 = [0, 0, 0, 0] ∧ (getText (getText .reset 500 1).2 500 1).2.mat = [500] := by decide
/-- Row 11: `get` across the wrap. -/
theorem test_get_wraps :
    (getInt { State.reset with mem := [(0, 3), (1023, 1)], mat := [0, 1023] } 1023 2).1 = 3145729 := by decide
theorem test_dump_after_get : dump (getInt .reset 500 1).2 = {(500, [0, 0, 0, 0])} := by decide

/-! ## One cycle (section 5): `C = 4` and the line under test at 5 -/

/-- The start state of section 5, with the lines the row loads. -/
def row (a : Acc) (mem : Memory) : State := { State.reset with c := 4, a, mem, mat := mem.map Prod.fst }

/-- The state one cycle leaves. -/
def after (s : State) : State :=
  match step s with
  | .next t => t
  | _ => s

theorem test_cba_taken_at_largest : (after (row 0x7FFFFFFFFF [(5, 0xA0064), (100, 0x32)])).c = 50 := by decide
theorem test_cba_not_taken : (after (row 0x8000000000 [(5, 0xA0064), (100, 0x4)])).c = 5 ∧
    (after (row 0x8000000000 [(5, 0xA0064)])).mat = [5, 100] := by decide
theorem test_ubr_low_ten_bits : (after (row 7 [(5, 0xB0064), (100, 0xFFFFF)])).c = 1023 := by decide
theorem test_ubr_halts : (after (row 7 [(5, 0xB0064), (100, 4)])).status = .haltedLoop ∧
    (after (row 7 [(5, 0xB0064), (100, 4)])).steps = 1 := by decide
theorem test_sta_wraps : (after (row 0xABCDE12345 [(5, 0x283FF)])).mem = [(0, 0xABCDE), (5, 0x283FF), (1023, 0x12345)] := by
  decide
theorem test_sta_zeroes_the_next_line : (after (row 5 [(5, 0x280C8), (201, 0x77)])).mem = [(5, 0x280C8), (200, 5)] ∧
    (after (row 5 [(5, 0x280C8), (201, 0x77)])).cir = 5 := by decide
theorem test_lda_wraps : (after (row 0x999 [(0, 0xABCDE), (5, 0x43FF), (1023, 0x12345)])).a = 0xABCDE12345 := by decide
theorem test_lda_own_line : (after (row 0x999 [(5, 0x4005), (6, 3)])).a = 0x304005 := by decide
theorem test_clr : (after (row 0x1234 [(5, 0x24309), (777, 0x55)])).a = 0 ∧
    (after (row 0x1234 [(5, 0x24309)])).mat = [5] := by decide
theorem test_add_wraps : (after (row 0xFFFFFFFFFF [(5, 0x3412C), (300, 2)])).a = 1 := by decide
theorem test_sub_wraps : (after (row 5 [(5, 0x6412C), (300, 7)])).a = 0xFFFFFFFFFE := by decide
theorem test_neg_faults : (after (row 7 [(5, 0x6C12C), (300, 5)])) =
    { row 7 [(5, 0x6C12C), (300, 5)] with c := 5, cir := 0x6C12C, status := .faultUnimplemented } := by decide
theorem test_dbl_ignores_a : (after (row 0x999 [(5, 0x7C12C), (300, 0x80000)])).a = 0x100000 := by decide
theorem test_dbl_drops_the_top_bit : (after (row 0x999 [(5, 0x7C12C), (300, 0xFFFFF), (301, 0xFFFFF)])).a = 0xFFFFFFFFFE := by
  decide
theorem test_nop : (after (row 0x1234 [(5, 0xFFD2C)])) =
    { row 0x1234 [(5, 0xFFD2C)] with c := 5, cir := 0xFFD2C, steps := 1 } := by decide
theorem test_invalid_faults : (after (row 0x1234 [(5, 0x409), (9, 5)])) =
    { row 0x1234 [(5, 0x409), (9, 5)] with c := 5, cir := 0x409, status := .faultInvalid, faultText := 1033 } := by decide

/-! ## The host's placing: each row of the table runs as the first instruction after reset -/

theorem test_placed_rows_run :
    [0xA0000, 0xB0000, 0x28000, 0x04000, 0x24000, 0x34000, 0x64000, 0x7C000, 0xFFC00].map
      (fun w => (after (State.reset.withFetchWord 24 w)).steps) = [1, 1, 1, 1, 1, 1, 1, 1, 1] := by decide
theorem test_placed_faults_run :
    (after (State.reset.withFetchWord 24 0x6C000)).status = .faultUnimplemented ∧
      (after (State.reset.withFetchWord 24 0)).status = .faultInvalid := by decide
theorem test_table_word : decodeTableWord 24 0x0412C = some (.lda 300) := by decide

/-! ## A program: P1 of section 6, the halt idiom, loaded as text -/

/-- The pairs of P1. -/
def pairsP1 : List (List Char × List Char) :=
  [(['/', '/'], ['E', '/', '/', 'P']), (['E', '/'], ['£', '£', '/', '/'])]

theorem test_p1_halts : (bootAndRun ⟨fcRef, alphabetRef, 0⟩ pairsP1 3).block.state =
    { State.reset with cir := 720897, mem := [(0, 0xB0001), (1, 0x3FF)], mat := [0, 1], status := .haltedLoop, steps := 1 } := by
  decide
theorem test_p1_record : runTrace fcRef 0 3 (loadPairs alphabetRef pairsP1 .reset).1 =
    [⟨0, [0, 0], [1, 0, 0, 22], [0, 0, 0, 0, 0, 0, 0, 0], none, none⟩] := by decide
theorem test_sta_record : stepRecord fcRef (row 0xABCDE12345 [(5, 0x280C8)]) =
    some ⟨0, enc10 5, enc20 0x280C8, enc40 0xABCDE12345, some (enc10 200), some (enc40 0xABCDE12345)⟩ := by decide
theorem test_fault_report : finalReport (after (row 0 [(5, 0x84005)])) = ⟨.faultInvalid, some [5, 0, 16, 16], 0⟩ := by decide
theorem test_snapshot_label : (snapshot (after (row 7 [(5, 0xB0064)]))).1 = 1 := by decide

/-- U13: after a load whose second pair is refused, the first is kept and a step is refused; after `Reset` it is not. -/
theorem test_refused_load_is_not_run :
    (hostApply ⟨fcRef, alphabetRef, 0⟩ (.load [(['/'], ['E']), (['e'], ['E'])]) .reset).block =
      ⟨{ State.reset with mem := [(0, 1)], mat := [0] }, true⟩ ∧
    (match (hostApply ⟨fcRef, alphabetRef, 0⟩ .step ⟨.reset, true⟩).output with
      | .refused r => some r | _ => none) = some .unfitToRun := by decide

/-- R156: from a machine that has run one cycle, a second `Run(1)` runs the next one, where R107's loop has met its bound. -/
theorem test_second_run_one : (runCall fcRef 1 (runCall fcRef 1 (row 7 [(5, 0xFFC00), (6, 0xFFC00)]))).steps = 2 ∧
    (runBounded fcRef 1 (runBounded fcRef 1 (row 7 [(5, 0xFFC00), (6, 0xFFC00)]))).steps = 1 := by decide

/-! ## Witnesses: for each statement with hypotheses, a state and operands that meet them -/

/-- `DecodeEncodeRoundTrip`, at an operand of all ones and at INVALID. -/
theorem witness_well_formed : (Instr.sta 1023).wf fcRef = true ∧ (Instr.invalid 1023 1022).wf fcRef = true := by decide

/-- A state with a line in the store that meets the store's invariant: `MemReadValueAndEffect`,
`MaterializeIsTheSourcesStep` (5 materialized, 6 not). -/
theorem witness_storeInv : StoreInv (row 7 [(5, 0xB0064)]) where
  memWf := by decide
  matRising := by decide
  zeroUnlessMat x hx := by
    have h : x ≠ 5 := by rintro rfl; revert hx; decide
    simp [row, State.read, Memory.read, h]

theorem witness_materialize_branches :
    (row 7 [(5, 0xB0064)]).isMat 5 = true ∧ (row 7 [(5, 0xB0064)]).isMat 1023 = false := by decide

/-- `MemWriteEffect`, `WriteThenReadGivesTheValue`: the largest pair at 1023, whose two lines do not meet, and whose other
lines there are. -/
theorem witness_pair_at_the_top : 0xFFFFFFFFFF < 2 ^ (20 * 2) ∧ 2 ≤ 1024 ∧ (1023 + 1) % 1024 ≠ (1023 + 0) % 1024 ∧
    (∀ i, i < 2 → 1 ≠ (1023 + i) % 1024) := by decide

/-- `MemoriesThatReadAlikeAreEqual`. -/
theorem witness_canonical_memories : Memory.wf [(0, 1), (1023, 2)] ∧
    Memory.wf (Memory.write (Memory.write [] 1023 2) 0 1) := by decide

/-- `SetWritesByLength`: an address of two symbols, 1023, and values of 0, 1, 4, 5 and 8 symbols. -/
theorem witness_set_lengths : ([31, 31] : Numeral).length ≤ 2 ∧
    [0, 1, 4, 5, 8].map (fun n => (List.replicate n (31 : Symbol)).length) = [0, 1, 4, 5, 8] := by decide

/-- `SetIsAllOrNothing`: the window, valid fields at their longest, and each field invalid. -/
theorem witness_set_fields : beforeFirstStep .reset = true ∧ validText alphabetRef 2 ['£', '£'] = true ∧
    validText alphabetRef 8 (List.replicate 8 '£') = true ∧ validText alphabetRef 2 ['E', '/', '@'] = false ∧
    validText alphabetRef 8 (List.replicate 9 '/') = false := by decide

/-- `LoadStopsAtTheFirstRefusedPair`, `RefusedLoadIsNotRun`: a load that succeeds, and a pair refused after it. -/
theorem witness_load : loadPairs alphabetRef [([], ['A'])] .reset = ({ State.reset with mem := [(0, 3)], mat := [0] }, none) ∧
    ∃ r, setText alphabetRef ['e'] [] { State.reset with mem := [(0, 3)], mat := [0] } = .refused r :=
  ⟨by decide, _, rfl⟩

/-- `LoadStopsAtTheFirstRefusedPair`, `RefusedLoadIsNotRun`, `HostIsRefusedOutsideItsWindows`: in the window, a load that
succeeds and one that is refused; a block unfit to run, and an operation that is no `Reset`. -/
theorem witness_host_load : beforeFirstStep Block.reset.state = true ∧
    loadPairs alphabetRef [(['/'], ['A'])] Block.reset.state = ({ State.reset with mem := [(0, 3)], mat := [0] }, none) ∧
    (loadPairs alphabetRef [(['e'], [])] Block.reset.state).2 = some .malformedField ∧
    (hostApply ⟨fcRef, alphabetRef, 0⟩ (.load [(['e'], [])]) .reset).block.loadRefused = true ∧ HostOp.dump ≠ .reset ∧
    Block.reset.loadRefused = false ∧ ∃ t, stepWith fcRef Block.reset.state = .next t :=
  ⟨by decide, by decide, by decide, by decide, by decide, rfl, _, rfl⟩

/-- `HostIsRefusedOutsideItsWindows`: a state between the cycles of a run with the bound above it, the same state with the
bound met, a halted one, and the operations each clause names. -/
theorem witness_windows :
    (after (row 7 [(5, 0xB0064)])).status = .running ∧ (after (row 7 [(5, 0xB0064)])).steps = 1 ∧
    (0 < 1 ∧ (1 < 2) ∧ (0 < 1 ∧ 1 ≤ (after (row 7 [(5, 0xB0064)])).steps)) ∧
    (after (row 7 [(5, 0xB0064), (100, 4)])).status ≠ .running ∧ HostOp.set [] [] ≠ .reset ∧ HostOp.load [] ≠ .reset := by
  decide

/-- The statements about any step (`HostIsRefusedOutsideItsWindows`, `PcAfterEachOperation`, `WritersOfEachItem`,
`LinesEachCycleMaterializes`, `StepRecordOfEachCycle`, `StepRunsTheDecodedInstruction`): a completed cycle after which the run
may go on. -/
theorem witness_completed_cycle : (row 7 [(5, 0xB0064)]).status = .running ∧
    ∃ t, stepWith fcRef (row 7 [(5, 0xB0064)]) = .next t ∧ mayStep 2 t = true ∧ FaultFree t :=
  ⟨rfl, _, rfl, by decide, .inl rfl⟩

/-- `HaltsExactlyAtATakenBranchToBefore`: both sides are met by a taken CBA, at the largest `A` that takes it. -/
theorem witness_halting_cycle : ∃ t, stepWith fcRef (row 0x7FFFFFFFFF [(5, 0xA0064), (100, 4)]) = .next t ∧
    t.status = .haltedLoop := ⟨_, rfl, rfl⟩

/-- `FaultingCycleLeaves`, `InvalidRaisesInvalidInstruction`, and the fault rows of `StatusTransitions`: an invalid line. -/
theorem witness_invalid_cycle : (∃ t, stepWith fcRef (row 1 [(5, 0x409)]) = .next t ∧ t.status = .faultInvalid) ∧
    decodeFC fcRef (lineFc ((row 1 [(5, 0x409)]).read 5)) = none ∧
    fcRef.assigned (lineFc ((row 1 [(5, 0x409)]).read 5)) = false := ⟨⟨_, rfl, rfl⟩, by decide, by decide⟩

/-- The same for a NEG line (`NegRaisesUnimplemented`). -/
theorem witness_neg_cycle : (∃ t, stepWith fcRef (row 1 [(5, 0x6C3FF)]) = .next t ∧ t.status = .faultUnimplemented) ∧
    decode fcRef ((row 1 [(5, 0x6C3FF)]).read 5) = .neg 1023 := ⟨⟨_, rfl, rfl⟩, by decide⟩

/-- `NopResultAndFrame`: a NOP line; `StoreIsSeenByTheNextFetch`: a STA line that stores to its own next line, to the line
before it, and elsewhere. -/
theorem witness_nop_and_sta_lines : decode fcRef ((row 1 [(5, 0xFFD2C)]).read 5) = .nop 300 ∧
    decode fcRef ((row 1 [(5, 0x28006)]).read 5) = .sta 6 ∧ decode fcRef ((row 1 [(5, 0x28005)]).read 5) = .sta 5 ∧
    decode fcRef ((row 1 [(5, 0x280C8)]).read 5) = .sta 200 := by decide

/-- `CbaResultAndFrame`: the two conditions at their boundary. -/
theorem witness_cba_boundary : ¬ (2 ^ 39 ≤ (0x7FFFFFFFFF : Acc).toNat ∧ (0x7FFFFFFFFF : Acc).toNat < 2 ^ 40) ∧
    (2 ^ 39 ≤ (0x8000000000 : Acc).toNat ∧ (0x8000000000 : Acc).toNat < 2 ^ 40) := by decide

/-- `SubResultAndFrame`: an operand equal to `A`, and one above it. -/
theorem witness_sub_cases : pairAt (row 5 [(300, 5)]) 300 ≤ (row 5 [(300, 5)]).a.toNat ∧
    (row 5 [(300, 6)]).a.toNat < pairAt (row 5 [(300, 6)]) 300 := by decide

/-- `SignedReadingOfArithmetic`: `A` zero, and the least negative and most negative `A`. -/
theorem witness_signs : 0 ≤ (0 : Acc).toInt ∧ (0xFFFFFFFFFF : Acc).toInt < 0 ∧ (0x8000000000 : Acc).toInt < 0 ∧
    ∃ t, exec (.cba 100) (row 0 []) = .next t := ⟨by decide, by decide, by decide, _, rfl⟩

/-- `StoreThenLoadRestores`: the state STA leaves itself meets the premises. -/
theorem witness_store_then_load : ∃ t, exec (.sta 1023) (row 0xABCDE12345 []) = .next t ∧
    (t.read 1023).toNat = 0x12345 ∧ (t.read 0).toNat = 0xABCDE := ⟨_, rfl, rfl, rfl⟩

/-- `TerminalStatesAreAbsorbing`, `StatusTransitions`: a terminal state and operations that are no `Reset`. -/
theorem witness_terminal : (after (row 0 [(5, 0x84005)])).status ≠ .running ∧ HostOp.step ≠ .reset ∧
    HostOp.getInt 9 1 ≠ .reset ∧ HostOp.set [] [] ≠ .reset ∧
    (∀ x n, HostOp.set [] [] ≠ .getText x n) ∧ ∀ x n, HostOp.set [] [] ≠ .getInt x n :=
  ⟨by decide, by decide, by decide, by decide, fun _ _ => nofun, fun _ _ => nofun⟩

/-- The row of `StatusTransitions` that goes on, and the one that halts. -/
theorem witness_transitions : (decodeFC fcRef (lineFc ((row 7 [(5, 0xB0064)]).read 5)) = some .ubr ∧ Op.ubr ≠ .neg) ∧
    (after (row 7 [(5, 0xB0064)])).c ≠ (row 7 [(5, 0xB0064)]).c ∧
    (after (row 7 [(5, 0xB0064), (100, 4)])).c = (row 7 [(5, 0xB0064), (100, 4)]).c := by decide

/-- `EveryStepKeepsTheInvariant`, `EveryHostOperationKeepsTheInvariant`: a Running state with a program that meets the
invariant and steps. -/
theorem witness_invariant : Inv fcRef (row 7 [(5, 0xB0064)]) ∧ ∃ t, step (row 7 [(5, 0xB0064)]) = .next t :=
  ⟨⟨witness_storeInv, fun h => (nomatch h), fun h => (nomatch h), fun h => (nomatch h)⟩, _, rfl⟩

/-- `RunOneRepeatedSingleSteps`: a Running state that steps and has `STEPS` 0, a terminal one, and a block fit to run. -/
theorem witness_single_step : (row 7 [(5, 0xFFC00)]).status = .running ∧ (row 7 [(5, 0xFFC00)]).steps = 0 ∧ 0 < 1 ∧
    (∃ t, stepWith fcRef (row 7 [(5, 0xFFC00)]) = .next t ∧ t.status = .running) ∧
    (after (row 7 [(5, 0x409)])).status ≠ .running ∧ Block.reset.loadRefused = false :=
  ⟨rfl, rfl, by decide, ⟨_, rfl, rfl⟩, by decide, rfl⟩

/-- `RunLoopStopsAtItsBound`, `RunEndsInOneWay`: a bound not yet met, and an unbounded run that ends. -/
theorem witness_runs : (0 < 1 ∧ (row 7 [(5, 0xB0064)]).steps ≤ 1) ∧ mayStep 1 (row 7 [(5, 0xB0064)]) = true ∧
    mayStep 1 (after (row 7 [(5, 0xB0064)])) = false ∧
    ∃ t, RunEndsAt fcRef 0 (row 7 [(5, 0xB0064), (100, 4)]) t := ⟨by decide, by decide, by decide, _, 2, rfl, rfl⟩

end Sys2Proof.Tests
end

section
/-!
SUPPORT. The state after reset: what each item the spec fixes reads as (spec/10_state.md R32), and the settled statements
about it.
-/

namespace Sys2Proof.Machine

@[simp] theorem reset_read (x : Nat) : State.reset.read x = 0 := rfl

@[simp] theorem reset_isMat (x : Nat) : State.reset.isMat x = false := rfl

/-- R32: "so that the first fetch increments it to address 0". -/
theorem reset_first_fetch_c : (fetch State.reset).c = 0 := by
  have hwrap : (1023 : Addr) + 1 = 0 := by decide
  exact (fetch_c State.reset).trans hwrap

/-- The host's `Reset` leaves the start state, whatever the block was (R159). -/
@[simp] theorem hostApply_reset_state (p : Params) (b : Block) :
    (hostApply p .reset b).block.state = State.reset := rfl

/-- Settles O26: the host's `Reset` leaves the state the model starts from, so the six rows are read off that one state. -/
theorem resetValues : Obligations.ResetValues := by
  have hrows : State.reset.a = 0 ∧ State.reset.c = 1023 ∧
      (∀ x, State.reset.read x = 0 ∧ State.reset.isMat x = false) ∧
      State.reset.status = .running ∧ State.reset.steps = 0 ∧ (fetch State.reset).c = 0 :=
    ⟨rfl, rfl, fun x => ⟨reset_read x, reset_isMat x⟩, rfl, rfl, reset_first_fetch_c⟩
  refine ⟨hrows, fun p b => ?_⟩
  simpa only [hostApply_reset_state] using hrows

end Sys2Proof.Machine
end

section
/-!
SUPPORT. The Electronic Store (spec/20_memory.md R42 to R44): what an access of any number of lines reads, writes,
materializes and leaves unchanged, and the settled statements about it.
-/

namespace Sys2Proof.Machine

/-! ## The addresses of an access -/

/-- The addresses of an access of `n` lines from `addr`, in the order it visits them, modulo 1024 (R38). -/
def accessAddrs (addr n : Nat) : List Nat := (List.range n).map fun i => (addr + i) % 1024

/-- An access visits the line at its base, then the lines of the access one shorter at the next address. -/
theorem accessAddrs_succ (addr n : Nat) : accessAddrs addr (n + 1) = wrap addr :: accessAddrs (addr + 1) n := by
  simp [accessAddrs, List.range_succ_eq_map, wrap, Nat.add_comm, Nat.add_left_comm]

/-! ## What an access materializes -/

theorem MatAdds.refl (s : State) : MatAdds s s [] := fun x => by simp

theorem MatAdds.trans {s u t : State} {xs ys : List Nat} (h : MatAdds s u xs) (h' : MatAdds u t ys) :
    MatAdds s t (xs ++ ys) := fun x => by
  rw [h' x, h x, List.mem_append, or_assoc]

theorem matAdds_materialize (s : State) (x : Nat) : MatAdds s (s.materialize x) [x] := fun y => by simp

theorem matAdds_writeLine (s : State) (x : Nat) (v : Line) : MatAdds s (s.writeLine x v) [x] := fun y => by simp

theorem memRead_matAdds (s : State) (addr n : Nat) : MatAdds s (s.memRead addr n).2 (accessAddrs addr n) := by
  induction n generalizing s addr with
  | zero => exact .refl s
  | succ n ih =>
    rw [accessAddrs_succ]
    exact (matAdds_materialize s (wrap addr)).trans (ih (s.materialize (wrap addr)) (addr + 1))

theorem memWrite_matAdds (s : State) (addr n v : Nat) : MatAdds s (s.memWrite addr n v) (accessAddrs addr n) := by
  induction n generalizing s addr v with
  | zero => exact .refl s
  | succ n ih =>
    rw [accessAddrs_succ]
    exact (matAdds_writeLine s (wrap addr) _).trans (ih _ (addr + 1) (v / 2 ^ 20))

/-! ## The value of a read -/

/-- The integer `MemRead` answers: line `i` of the access counts `2 ^ (20 * i)` (R43). -/
theorem memRead_fst_eq_sum (s : State) (addr n : Nat) :
    (s.memRead addr n).1 = ∑ i ∈ Finset.range n, (s.read ((addr + i) % 1024)).toNat * 2 ^ (20 * i) := by
  induction n generalizing s addr with
  | zero => rfl
  | succ n ih =>
    have hshift (i : Nat) : (s.read ((addr + (i + 1)) % 1024)).toNat * 2 ^ (20 * (i + 1)) =
        2 ^ 20 * ((s.read ((addr + 1 + i) % 1024)).toNat * 2 ^ (20 * i)) := by
      rw [show addr + (i + 1) = addr + 1 + i by omega, Nat.mul_succ, Nat.pow_add]
      ring
    simp only [State.memRead, ih, read_materialize, Finset.sum_range_succ', hshift, ← Finset.mul_sum]
    rw [Nat.add_comm, Nat.mul_zero, Nat.pow_zero, Nat.mul_one]
    rfl

theorem memRead_fst_lt (s : State) (addr n : Nat) : (s.memRead addr n).1 < 2 ^ (20 * n) := by
  induction n generalizing s addr with
  | zero => exact Nat.one_pos
  | succ n ih =>
    have hline := (s.read (wrap addr)).isLt
    have hrest := ih (s.materialize (wrap addr)) (addr + 1)
    rw [State.memRead, Nat.mul_succ, Nat.pow_add]
    omega

/-- Settles O14: a read changes no field but `V`, so the value is a sum over the lines of the start state. -/
theorem memReadValueAndEffect : Obligations.MemReadValueAndEffect := by
  intro s addr n _
  obtain ⟨ha, hc, hcir, hmem, hstatus, htext, hsteps⟩ := memRead_fields s addr n
  have hstore : SameStore s (s.memRead addr n).2 := fun x => by rw [read_eq, hmem, read_eq]
  exact ⟨memRead_fst_eq_sum s addr n, memRead_fst_lt s addr n, memRead_matAdds s addr n, hstore,
    ⟨hstatus, htext, hsteps⟩, ha, hc, hcir⟩

/-! ## The lines of a write -/

/-- `MemWrite` leaves every field but `M` and `V` alone. -/
theorem memWrite_fields (s : State) (addr n v : Nat) :
    (s.memWrite addr n v).a = s.a ∧ (s.memWrite addr n v).c = s.c ∧ (s.memWrite addr n v).cir = s.cir ∧
      SameEngine s (s.memWrite addr n v) := by
  induction n generalizing s addr v with
  | zero => exact ⟨rfl, rfl, rfl, rfl, rfl, rfl⟩
  | succ n ih => exact ih (s.writeLine (wrap addr) _) (addr + 1) (v / 2 ^ 20)

/-- A line outside the access reads as before. -/
theorem memWrite_read_outside (s : State) (addr n v x : Nat) (hx : ∀ i, i < n → x ≠ (addr + i) % 1024) :
    (s.memWrite addr n v).read x = s.read x := by
  induction n generalizing s addr v with
  | zero => rfl
  | succ n ih =>
    have hbase : x ≠ wrap addr := hx 0 n.succ_pos
    have hrest : ∀ i, i < n → x ≠ (addr + 1 + i) % 1024 := fun i hi => by
      simpa [Nat.add_assoc, Nat.add_comm 1 i] using hx (i + 1) (by omega)
    rw [State.memWrite, ih _ _ _ hrest, read_writeLine, if_neg hbase]

/-- A line that no later chunk overwrites holds its chunk of the value (R44). -/
theorem memWrite_read_chunk (s : State) (addr n v i : Nat) (hi : i < n)
    (hlast : ∀ j, i < j → j < n → (addr + j) % 1024 ≠ (addr + i) % 1024) :
    ((s.memWrite addr n v).read ((addr + i) % 1024)).toNat = v / 2 ^ (20 * i) % 2 ^ 20 := by
  induction n generalizing s addr v i with
  | zero => omega
  | succ n ih =>
    cases i with
    | zero =>
      have hrest : ∀ j, j < n → wrap addr ≠ (addr + 1 + j) % 1024 := fun j hj => by
        simpa [wrap, Nat.add_assoc, Nat.add_comm 1 j] using (hlast (j + 1) (by omega) (by omega)).symm
      have hread : (s.memWrite addr (n + 1) v).read (wrap addr) = BitVec.ofNat 20 v := by
        rw [State.memWrite, memWrite_read_outside _ _ _ _ _ hrest, read_writeLine, if_pos rfl]
      rw [Nat.mul_zero, Nat.pow_zero, Nat.div_one, ← BitVec.toNat_ofNat, ← hread]
      rfl
    | succ i =>
      have hnext (j : Nat) : addr + 1 + j = addr + (j + 1) := Nat.succ_add_eq_add_succ addr j
      have hrest : ∀ j, i < j → j < n → (addr + 1 + j) % 1024 ≠ (addr + 1 + i) % 1024 := fun j hij hj => by
        simpa only [hnext] using hlast (j + 1) (by omega) (by omega)
      have hchunk : v / 2 ^ 20 / 2 ^ (20 * i) = v / 2 ^ (20 * (i + 1)) := by
        rw [Nat.div_div_eq_div_mul, ← Nat.pow_add, Nat.mul_succ, Nat.add_comm]
      rw [State.memWrite, ← hnext i, ih _ _ _ _ (by omega) hrest, hchunk]

/-- Settles O15: by induction on the lines of the access, where each line's last write stands and no other line is
touched. -/
theorem memWriteEffect : Obligations.MemWriteEffect := by
  intro s addr n v _
  obtain ⟨ha, hc, hcir, hengine⟩ := memWrite_fields s addr n v
  exact ⟨memWrite_read_chunk s addr n v, memWrite_read_outside s addr n v, memWrite_matAdds s addr n v, hengine,
    ha, hc, hcir⟩

/-! ## Materializing -/

/-- A canonical memory lists no cell at an address that reads as the zero line. -/
theorem Memory.ne_of_read_zero {m : Memory} (h : m.wf) {x : Nat} (hx : m.read x = 0) : ∀ p ∈ m, p.1 ≠ x := by
  induction m with
  | nil => simp
  | cons q m ih =>
    obtain ⟨b, w⟩ := q
    have hw : w ≠ 0 := (h.2 (b, w) (by simp)).2
    have hne : x ≠ b := fun e => hw (by simpa [Memory.read, e] using hx)
    have htail : Memory.read m x = 0 := by simpa [Memory.read, hne] using hx
    exact List.forall_mem_cons.mpr ⟨hne.symm, ih (Memory.wf_tail h) htail⟩

/-- Writing 0 to a line that is 0 leaves a canonical memory as it is (assumption log 5). -/
theorem Memory.write_zero_of_read_zero {m : Memory} (h : m.wf) {x : Nat} (hx : m.read x = 0) : m.write x 0 = m := by
  simpa [Memory.write] using Memory.ne_of_read_zero h hx

/-- Settles O17: a set bit is set again to no effect; a clear bit means a zero line, which the write of 0 leaves. -/
theorem materializeIsTheSourcesStep : Obligations.MaterializeIsTheSourcesStep := by
  intro s x hs _
  split
  case isTrue hmat =>
    have hset : setMat s.mat x = s.mat := setMat_of_mem hs.matRising.1 ((isMat_iff s x).mp hmat)
    simp only [State.materialize, hset]
  case isFalse hmat =>
    have hzero : s.mem.read x = 0 := hs.zeroUnlessMat x (by simpa using hmat)
    simp only [State.materialize, Memory.write_zero_of_read_zero hs.memWf hzero]

end Sys2Proof.Machine
end

section
/-!
SUPPORT. A field of text under the validity predicate (spec/40_symbol_codec.md R89, R90) and the host's `set`
(spec/20_memory.md R46, R47), with the settled statement about it.
-/

namespace Sys2Proof.Machine

theorem valueOf_of_mem {al : Alphabet} {ch : Char} (h : ch ∈ al.glyphs) : ∃ x, valueOf al ch = some x := by
  obtain ⟨i, hi⟩ := Option.isSome_iff_exists.mp (List.isSome_idxOf?.mpr h)
  exact ⟨BitVec.ofNat 5 i, by simp [valueOf, hi]⟩

/-- A text of glyphs parses (R93). -/
theorem parseText_of_glyphs {al : Alphabet} {t : List Char} (h : ∀ ch ∈ t, ch ∈ al.glyphs) :
    ∃ s, parseText al t = some s := by
  induction t with
  | nil => exact ⟨[], rfl⟩
  | cons ch t ih =>
    obtain ⟨hch, ht⟩ := List.forall_mem_cons.mp h
    obtain ⟨x, hx⟩ := valueOf_of_mem hch
    obtain ⟨s, hs⟩ := ih ht
    exact ⟨x :: s, by simp [parseText, hx, hs]⟩

theorem validText_iff (al : Alphabet) (maxLen : Nat) (t : List Char) :
    validText al maxLen t = true ↔ t.length ≤ maxLen ∧ ∀ ch ∈ t, ch ∈ al.glyphs := by
  simp [validText]

/-- A valid field is read as what its text parses to. -/
theorem readField_of_valid {al : Alphabet} {maxLen : Nat} {t : List Char} (h : validText al maxLen t = true) :
    ∃ s, parseText al t = some s ∧ readField al maxLen t = some s := by
  obtain ⟨s, hs⟩ := parseText_of_glyphs ((validText_iff al maxLen t).mp h).2
  exact ⟨s, hs, by rw [readField, if_pos h, hs]⟩

theorem readField_of_invalid {al : Alphabet} {maxLen : Nat} {t : List Char} (h : validText al maxLen t = false) :
    readField al maxLen t = none := by
  simp [readField, h]

/-- Two valid fields: `set` writes the parsed value at the parsed address. -/
theorem setText_of_valid {al : Alphabet} {address value : List Char} (s : State)
    (ha : validText al 2 address = true) (hv : validText al 8 value = true) :
    ∃ x v, parseText al address = some x ∧ parseText al value = some v ∧
      setText al address value s = .next (setNumeral s x v) := by
  obtain ⟨x, hx, hxf⟩ := readField_of_valid ha
  obtain ⟨v, hval, hvf⟩ := readField_of_valid hv
  exact ⟨x, v, hx, hval, by simp [setText, hxf, hvf]⟩

/-- An invalid field: `set` is Malformed Field. -/
theorem setText_of_invalid {al : Alphabet} {address value : List Char} (s : State)
    (h : validText al 2 address = false ∨ validText al 8 value = false) :
    setText al address value s = .refused .malformedField := by
  rcases h with h | h
  · simp [setText, readField_of_invalid h]
  · cases hx : readField al 2 address <;> simp [setText, hx, readField_of_invalid h]

/-- In its window the host's `set` keeps what `setText` answers (R58). -/
theorem hostApply_set_of_next {p : Params} {address value : List Char} {b : Block} {t : State}
    (hw : beforeFirstStep b.state = true) (h : setText p.alphabet address value b.state = .next t) :
    hostApply p (.set address value) b = ⟨{ b with state := t }, .done⟩ := by
  simp [hostApply, hw, h]

/-- In its window a refused `set` reports the refusal and keeps the block (R47). -/
theorem hostApply_set_of_refused {p : Params} {address value : List Char} {b : Block} {r : Refusal}
    (hw : beforeFirstStep b.state = true) (h : setText p.alphabet address value b.state = .refused r) :
    hostApply p (.set address value) b = ⟨b, .refused r⟩ := by
  simp [hostApply, hw, h]

/-- Settles O20: both fields are read before anything is written, so `set` answers the written state or refuses. -/
theorem setIsAllOrNothing : Obligations.SetIsAllOrNothing := by
  intro p address value b hw
  refine ⟨fun ha hv => ?_, fun h => hostApply_set_of_refused hw (setText_of_invalid b.state h)⟩
  obtain ⟨x, v, hx, hval, hset⟩ := setText_of_valid b.state ha hv
  exact ⟨x, v, hx, hval, hostApply_set_of_next hw hset⟩

end Sys2Proof.Machine
end

section
/-!
SUPPORT. The two fields of a line as symbols (spec/30_encoding.md R62) and the function code a match answers for (R66),
with the settled statements about them.
-/

namespace Sys2Proof.Machine

/-! ## The four symbols of a line -/

/-- The first `w` symbols see nothing of a number above `32 ^ w`. -/
theorem symbols_mod (w n : Nat) : symbols w (n % 32 ^ w) = symbols w n :=
  dec_injective (by simp) (by simp [dec_symbols])

/-- The two symbols of a 10-bit field are its two halves of 5 bits. -/
theorem enc10_toNat (x : BitVec 10) : enc10 x.toNat = [x.extractLsb' 0 5, x.extractLsb' 5 5] := by
  have hlow : BitVec.ofNat 5 (x.toNat % 32) = x.extractLsb' 0 5 :=
    BitVec.eq_of_toNat_eq (by simp)
  have hhigh : BitVec.ofNat 5 (x.toNat / 32 % 32) = x.extractLsb' 5 5 :=
    BitVec.eq_of_toNat_eq (by simp [Nat.shiftRight_eq_div_pow])
  rw [enc10, Nat.mod_eq_of_lt x.isLt, symbols, symbols, symbols, hlow, hhigh]

/-- R62: the text of a line is the text of its address followed by the text of its function code. -/
theorem enc20_line (l : Line) : enc20 l.toNat = enc10 (lineAddr l).toNat ++ enc10 (lineFc l).toNat := by
  have haddr : (lineAddr l).toNat % 2 ^ 10 = l.toNat % 32 ^ 2 := by simp [lineAddr_toNat]
  have hfc : (lineFc l).toNat % 2 ^ 10 = l.toNat / 32 ^ 2 := by
    rw [Nat.mod_eq_of_lt (lineFc l).isLt]
    exact lineFc_toNat l
  rw [enc20, Nat.mod_eq_of_lt l.isLt, symbols_add 2 2, enc10, enc10, haddr, hfc, symbols_mod]

/-- Settles O4: the values are those of the two bit ranges, and the symbols are read off `enc20_line`. -/
theorem lineFields : Obligations.LineFields := by
  intro l
  have hline : l.toNat = (lineAddr l).toNat + 1024 * (lineFc l).toNat := by
    rw [lineAddr_toNat, lineFc_toNat, Nat.mod_add_div]
  refine ⟨lineAddr_toNat l, lineFc_toNat l, hline, ?_⟩
  simp [enc20_line, enc10_toNat]

/-! ## Matching a function code -/

theorem decodeFC_eq_some_iff (fc : FunctionCodes) (c : FnCode) (o : Op) : decodeFC fc c = some o ↔ fc.code o = c := by
  constructor
  · intro h
    simpa using List.find?_some h
  · rintro rfl
    exact decodeFC_of_code fc o

theorem decodeFC_eq_none_iff (fc : FunctionCodes) (c : FnCode) : decodeFC fc c = none ↔ ∀ o, fc.code o ≠ c := by
  simp only [Option.eq_none_iff_forall_ne_some, ne_eq, decodeFC_eq_some_iff]

/-- Settles O5: the ten codes are distinct, so the first match is the only one. -/
theorem functionCodeMatchedExactly : Obligations.FunctionCodeMatchedExactly := fun fc c =>
  ⟨decodeFC_eq_some_iff fc c, decodeFC_eq_none_iff fc c⟩

end Sys2Proof.Machine
end

section
/-!
SUPPORT. The positional sum of a numeral (spec/40_symbol_codec.md R82) and the validity predicate on text (R89, R90), with
the settled statements about them.
-/

namespace Sys2Proof.Machine

/-! ## The positional sum -/

/-- R82: `DEC` adds each symbol's value times the power of 32 of its position. -/
theorem dec_eq_sum (s : Numeral) : dec s = ∑ i ∈ Finset.range s.length, (s.getD i 0).toNat * 32 ^ i := by
  induction s with
  | nil => rfl
  | cons x s ih =>
    have hshift : ∑ i ∈ Finset.range s.length, ((x :: s).getD (i + 1) 0).toNat * 32 ^ (i + 1) = 32 * dec s := by
      rw [ih, Finset.mul_sum]
      refine Finset.sum_congr rfl fun i _ => ?_
      rw [List.getD_cons_succ, pow_succ]
      ring
    rw [List.length_cons, Finset.sum_range_succ', hshift, dec_cons, List.getD_cons_zero]
    ring

/-- A zero symbol at the high end adds nothing (R82). -/
theorem dec_append_zero (s : Numeral) : dec (s ++ [0]) = dec s := by
  simp [dec_append]

/-- Settles O9: the sum by induction on the numeral, the trailing zero by `dec_append`, the bound by `dec_lt`. -/
theorem decIsPositional : Obligations.DecIsPositional :=
  ⟨fun s => ⟨dec_eq_sum s, dec_append_zero s, dec_lt s⟩, dec_nil, by decide⟩

/-! ## Validity of a text -/

theorem glyphOf_mem (al : Alphabet) (x : Symbol) : glyphOf al x ∈ al.glyphs :=
  List.getElem_mem _

/-- A printed numeral is made of glyphs, so only its length is left to check (R89). -/
theorem validText_printText (al : Alphabet) (maxLen : Nat) (s : Numeral) :
    validText al maxLen (printText al s) = true ↔ s.length ≤ maxLen := by
  have hglyphs : ∀ ch ∈ printText al s, ch ∈ al.glyphs := by
    simp [printText, glyphOf_mem]
  rw [validText_iff, and_iff_left hglyphs, printText, List.length_map]

/-- R90: a field is read exactly when its text is valid. -/
theorem readField_isSome (al : Alphabet) (maxLen : Nat) (t : List Char) :
    (readField al maxLen t).isSome = validText al maxLen t := by
  cases h : validText al maxLen t with
  | false => rw [readField_of_invalid h, Option.isSome_none]
  | true =>
    obtain ⟨s, _, hs⟩ := readField_of_valid h
    rw [hs, Option.isSome_some]

/-- Settles O13: every glyph stands for a symbol, so a valid text parses; printing writes glyphs only, one per symbol. -/
theorem validityOfText : Obligations.ValidityOfText := fun al maxLen =>
  ⟨validText_iff al maxLen, readField_isSome al maxLen, (validText_iff al maxLen []).mpr (by simp),
    validText_printText al maxLen⟩

end Sys2Proof.Machine
end

section
/-!
SUPPORT. One cycle (spec/41_cycle_fetch_decode_run.md R96, R97): what fetch leaves, the `STATUS` each kind of line leaves, and
what the host's operations leave of a terminal `STATUS`, with the settled statements about them.
-/

namespace Sys2Proof.Machine

/-! ## Fetch -/

/-- Fetch sets one bit of `V`, that of the line it reads (R97). -/
theorem fetch_matAdds (s : State) : MatAdds s (fetch s) [nextAddr s.c] := fun x => by simp

theorem fetch_sameEngine (s : State) : SameEngine s (fetch s) :=
  ⟨fetch_status s, fetch_faultText s, fetch_steps s⟩

/-- Settles O28: the new `C` is the address after the old one, and fetch reads, and materializes, the line there. -/
theorem fetchIncrementsThenLoads : Obligations.FetchIncrementsThenLoads := by
  intro s
  have hc : (fetch s).c.toNat = nextAddr s.c := by rw [fetch_c, toNat_add_one]
  exact ⟨hc, fetch_cir s, fetch_matAdds s, fetch_a s, fetch_read s, fetch_sameEngine s⟩

/-! ## The status a cycle leaves -/

/-- Of the assigned operations only NEG raises (R103). -/
theorem exec_status_of_ne_neg {o : Op} (ho : o ≠ .neg) {x : Addr} {s u : State}
    (h : exec (o.instr x) s = .next u) : u.status = s.status := by
  obtain ⟨_, ⟨⟨y, hi⟩, _⟩ | ⟨⟨y, c, hi⟩, _⟩ | ⟨hstatus, _⟩⟩ := exec_engine h
  · cases o
    case neg => exact absurd rfl ho
    all_goals cases hi
  · cases o <;> cases hi
  · exact hstatus

section Cycle
variable {fc : FunctionCodes} {s t : State} (h : stepWith fc s = .next t)
include h

/-- A NEG line raises Unimplemented Operation, and the cycle stops there. -/
theorem stepWith_status_of_neg (hneg : decodeFC fc (lineFc (s.read (nextAddr s.c))) = some .neg) :
    t.status = .faultUnimplemented := by
  obtain ⟨_, u, hu, rfl⟩ := stepWith_cases h
  rw [decode_some hneg, Op.instr, exec_neg] at hu
  cases hu
  rw [endCycle_raised _ _ (by simp), raise_unimplemented_status]

/-- An unassigned code raises Invalid Instruction, and the cycle stops there. -/
theorem stepWith_status_of_unassigned (hnone : decodeFC fc (lineFc (s.read (nextAddr s.c))) = none) :
    t.status = .faultInvalid := by
  obtain ⟨_, u, hu, rfl⟩ := stepWith_cases h
  rw [decode_none hnone, exec_invalid] at hu
  cases hu
  rw [endCycle_raised _ _ (by simp), raise_invalid_status]

/-- Any other line completes its cycle, which ends with the halting-loop test on `C` (R104). -/
theorem stepWith_status_of_ne_neg {o : Op} (hsome : decodeFC fc (lineFc (s.read (nextAddr s.c))) = some o)
    (ho : o ≠ .neg) : t.status = if t.c = s.c then .haltedLoop else .running := by
  obtain ⟨hr, u, hu, rfl⟩ := stepWith_cases h
  rw [decode_some hsome] at hu
  have hur : u.status = .running := by rw [exec_status_of_ne_neg ho hu, fetch_status, hr]
  rw [(endCycle_running s.c u hur).2, endCycle_c]

end Cycle

/-! ## A terminal status -/

/-- A terminal machine has no next state (R109). -/
theorem stepWith_ne_next_of_terminal {fc : FunctionCodes} {s : State} (hs : s.status ≠ .running) (t : State) :
    stepWith fc s ≠ .next t := fun h => hs (stepWith_cases h).1

/-- Only `Reset` moves a terminal `STATUS`: the window of `set` and `load` is closed, and a `get` touches `V` alone. -/
theorem hostApply_status_of_terminal {p : Params} {op : HostOp} {b : Block} (hs : b.state.status ≠ .running)
    (hop : op ≠ .reset) : (hostApply p op b).block.state.status = b.state.status := by
  rcases hostApply_cases p op b with ⟨hreset, _⟩ | hkept | ⟨addr, n, _, _, hread⟩ | ⟨_, hwindow, _⟩ | ⟨_, _, t, hstep, _⟩
  · exact absurd hreset hop
  · rw [hkept]
  · obtain ⟨_, _, _, _, hstatus, _⟩ := memRead_fields b.state addr n
    rw [hread, hstatus]
  · exact absurd ((beforeFirstStep_iff _).mp hwindow).1 hs
  · exact absurd hstep (stepWith_ne_next_of_terminal hs t)

/-- Settles O31: the rows from Running by what the fetched line's code names, `Reset`'s row, and the terminal rows. -/
theorem statusTransitions : Obligations.StatusTransitions := by
  refine ⟨fun fc s hr => ?_, fun p b => by rw [hostApply_reset_state]; rfl, fun p op b hs hop =>
    ⟨hostApply_status_of_terminal hs hop, stepWith_ne_next_of_terminal hs⟩⟩
  obtain ⟨t, ht⟩ := stepWith_running fc hr
  refine ⟨t, ht, stepWith_status_of_neg ht, stepWith_status_of_unassigned ht, fun o hsome ho => ?_⟩
  have hstatus := stepWith_status_of_ne_neg ht hsome ho
  exact ⟨fun hc => by rw [hstatus, if_neg hc], fun hc => by rw [hstatus, if_pos hc]⟩

end Sys2Proof.Machine
end

section
/-!
SUPPORT. The run loop (spec/41_cycle_fetch_decode_run.md R107): how the end of a run follows its cycles, what a bound says of
`STEPS` and of the cycles a run needs, with the settled statement about them.
-/

namespace Sys2Proof.Machine

/-! ## The end of a run -/

/-- A run that has ended ends where it is. -/
theorem runEndsAt_of_stop {fc : FunctionCodes} {n : Nat} {s u : State} (hs : mayStep n s = false) :
    RunEndsAt fc n s u ↔ u = s := by
  constructor
  · rintro ⟨fuel, rfl, _⟩
    exact runFor_stop hs
  · rintro rfl
    exact ⟨0, rfl, hs⟩

/-- A run that may go on ends where the run from its next state ends. -/
theorem runEndsAt_of_next {fc : FunctionCodes} {n : Nat} {s t u : State} (hs : mayStep n s = true)
    (ht : stepWith fc s = .next t) : RunEndsAt fc n s u ↔ RunEndsAt fc n t u := by
  constructor
  · rintro ⟨fuel, hrun, hend⟩
    cases fuel with
    | zero =>
      have hsu : s = u := hrun
      rw [← hsu, hs] at hend
      cases hend
    | succ fuel => exact ⟨fuel, (runFor_next hs ht fuel).symm.trans hrun, hend⟩
  · rintro ⟨fuel, hrun, hend⟩
    exact ⟨fuel + 1, (runFor_next hs ht fuel).trans hrun, hend⟩

/-! ## The bound -/

/-- What every cycle of the loop keeps, the run keeps. -/
theorem runFor_keeps {fc : FunctionCodes} {n : Nat} (P : State → Prop)
    (hstep : ∀ s t, mayStep n s = true → stepWith fc s = .next t → P s → P t) (fuel : Nat) {s : State} (hs : P s) :
    P (runFor fc n fuel s) := by
  induction fuel generalizing s with
  | zero => exact hs
  | succ fuel ih =>
    cases hm : mayStep n s with
    | false => rwa [runFor_stop hm]
    | true =>
      obtain ⟨t, ht⟩ := stepWith_running fc ((mayStep_iff n s).mp hm).1
      rw [runFor_next hm ht]
      exact ih (hstep s t hm ht hs)

/-- A cycle that the bound lets start does not count past it. -/
theorem stepWith_steps_le {fc : FunctionCodes} {n : Nat} {s t : State} (hn : 0 < n) (hm : mayStep n s = true)
    (ht : stepWith fc s = .next t) : t.steps ≤ n := by
  obtain ⟨_, hbound⟩ := (mayStep_iff n s).mp hm
  rcases stepWith_steps ht with ⟨hcount, _⟩ | ⟨hcount, _⟩ <;> omega

/-- With a bound, as many cycles as are left below it end the run: each one counts or leaves a fatal fault. -/
theorem runFor_ended {fc : FunctionCodes} {n : Nat} (hn : 0 < n) (fuel : Nat) {s : State} (hfuel : n ≤ s.steps + fuel) :
    mayStep n (runFor fc n fuel s) = false := by
  induction fuel generalizing s with
  | zero => exact (mayStep_eq_false n s).mpr (.inr ⟨hn.ne', hfuel⟩)
  | succ fuel ih =>
    cases hm : mayStep n s with
    | false => rwa [runFor_stop hm]
    | true =>
      obtain ⟨t, ht⟩ := stepWith_running fc ((mayStep_iff n s).mp hm).1
      rw [runFor_next hm ht]
      rcases stepWith_steps ht with ⟨hcount, _⟩ | ⟨_, hfault⟩
      · exact ih (by omega)
      · have hstop : mayStep n t = false := (mayStep_eq_false n t).mpr (.inl fun hr => hfault (.inl hr))
        rwa [runFor_stop hstop]

theorem runBounded_endsAt (fc : FunctionCodes) {n : Nat} (hn : 0 < n) (s : State) :
    RunEndsAt fc n s (runBounded fc n s) :=
  ⟨n - s.steps, rfl, runFor_ended hn _ (by omega)⟩

theorem runBounded_steps_le (fc : FunctionCodes) {n : Nat} (hn : 0 < n) {s : State} (hs : s.steps ≤ n) :
    (runBounded fc n s).steps ≤ n :=
  runFor_keeps (·.steps ≤ n) (fun _ _ hm ht _ => stepWith_steps_le hn hm ht) _ hs

/-- A run that ended while Running ended at its bound, so it had one. -/
theorem RunEndsAt.bound_of_running {fc : FunctionCodes} {n : Nat} {s t : State} (h : RunEndsAt fc n s t)
    (hr : t.status = .running) : n ≠ 0 ∧ n ≤ t.steps := by
  obtain ⟨_, _, hend⟩ := h
  exact ((mayStep_eq_false n t).mp hend).resolve_left (not_not_intro hr)

/-- Settles O54: the loop's test, its unfolding by one cycle, and the end of a run with a bound and without one. -/
theorem runLoopStopsAtItsBound : Obligations.RunLoopStopsAtItsBound := by
  refine ⟨mayStep_iff, fun fc n s u => ⟨fun hm => ?_, runEndsAt_of_stop⟩, fun fc n s hn hs => ?_, fun fc s t h hr => ?_⟩
  · obtain ⟨t, ht⟩ := stepWith_running fc ((mayStep_iff n s).mp hm).1
    exact ⟨t, ht, runEndsAt_of_next hm ht⟩
  · have hend := runBounded_endsAt fc hn s
    have hle := runBounded_steps_le fc hn hs
    exact ⟨hend, hle, fun hr => ⟨hle.antisymm (hend.bound_of_running hr).2, stepWith_running fc hr⟩⟩
  · exact (h.bound_of_running hr).1 rfl

end Sys2Proof.Machine
end

section
/-!
SUPPORT. Control transfer (spec/42_control_transfer.md R116, R117): the line of an instruction as a number, and the one shape
of state both branches answer, the target line materialized and `C` loaded, with the settled statements about them.
-/

namespace Sys2Proof.Machine

/-- R62 for the assembler: the line of an instruction is its address plus 1024 times its function code. -/
theorem encode_toNat (fc : FunctionCodes) (i : Instr) :
    (encode fc i).toNat = i.addr.toNat + 1024 * (i.fnCode fc).toNat :=
  mkLine_toNat i.addr (i.fnCode fc)

/-- CBA as one load of `C`: falling through loads the value `C` already has (R116). -/
theorem exec_cba_eq_setC (s : State) (addr : Addr) : exec (.cba addr) s = .next
    ((s.materialize addr.toNat).setC (if signBit s.a then s.c else branchValue (s.read addr.toNat))) := by
  rw [exec_cba]
  cases signBit s.a <;> rfl

/-- The frame of a branch: reading the target line and loading `C` touch `V[x]` and `C` only. -/
theorem materialize_setC_frame (s : State) (x : Nat) (v : Addr) :
    ((s.materialize x).setC v).a = s.a ∧ ((s.materialize x).setC v).cir = s.cir ∧
      SameStore s ((s.materialize x).setC v) ∧ MatAdds s ((s.materialize x).setC v) [x] ∧
      SameEngine s ((s.materialize x).setC v) :=
  ⟨rfl, rfl, fun _ => rfl, matAdds_materialize s x, rfl, rfl, rfl⟩

/-- Settles O41: the branch's condition is bit 39 of `A`, clear exactly outside R116's range, which bounds every `A`. -/
theorem cbaResultAndFrame : Obligations.CbaResultAndFrame := by
  intro fc addr s
  refine ⟨encode_toNat fc (.cba addr), _, exec_cba_eq_setC s addr, fun hout => ?_, fun ⟨hlow, _⟩ => ?_,
    materialize_setC_frame ..⟩
  · have hsign : ¬ signBit s.a = true := fun h => hout ⟨(signBit_iff s.a).mp h, s.a.isLt⟩
    rw [setC_c, if_neg hsign, branchValue_toNat]
  · rw [setC_c, if_pos ((signBit_iff s.a).mpr hlow)]

/-- Settles O42: the branch loads the low ten bits of the line it read. -/
theorem ubrResultAndFrame : Obligations.UbrResultAndFrame := by
  intro fc addr s
  have hc : ((s.materialize addr.toNat).setC (branchValue (s.read addr.toNat))).c.toNat =
      (s.read addr.toNat).toNat % 1024 := by rw [setC_c, branchValue_toNat]
  exact ⟨encode_toNat fc (.ubr addr), _, exec_ubr s addr, hc, materialize_setC_frame ..⟩

end Sys2Proof.Machine
end

section
/-!
SUPPORT. Accumulator transfer (spec/43_accumulator_transfer.md R120 to R122): the two lines of an accumulator value, the pair
STA writes and its writing as the host's `set`, and the one shape of state the operations that load `A` from a pair answer,
with the settled statements about STA, LDA and CLR.
-/

namespace Sys2Proof.Machine

/-! ## The two lines of an accumulator value -/

theorem lowLine_toNat (v : Acc) : (lowLine v).toNat = v.toNat % 2 ^ 20 := by simp [lowLine]

theorem highLine_toNat (v : Acc) : (highLine v).toNat = v.toNat / 2 ^ 20 := by
  have hlines := lines_of_acc v
  have hlow := (lowLine v).isLt
  omega

/-! ## `set` as a write of lines -/

/-- Writing the text of `k` lines chunk by chunk (R46) is `MemWrite` of the number the text stands for (R44). -/
theorem writeChunks_symbols (s : State) (base k v : Nat) :
    writeChunks s base k (symbols (4 * k) v) = s.memWrite base k v := by
  induction k generalizing s base v with
  | zero => rfl
  | succ k ih =>
    have hsplit : symbols (4 * (k + 1)) v = symbols 4 v ++ symbols (4 * k) (v / 2 ^ 20) := by
      rw [Nat.mul_succ, Nat.add_comm, symbols_add, show 32 ^ 4 = 2 ^ 20 from rfl]
    have hfirst : (symbols 4 v ++ symbols (4 * k) (v / 2 ^ 20)).take 4 = symbols 4 v :=
      List.take_left' (length_symbols 4 v)
    have hrest : (symbols 4 v ++ symbols (4 * k) (v / 2 ^ 20)).drop 4 = symbols (4 * k) (v / 2 ^ 20) :=
      List.drop_left' (length_symbols 4 v)
    have hline : BitVec.ofNat 20 (dec (padLine (symbols 4 v))) = BitVec.ofNat 20 v := by
      rw [dec_padLine, dec_symbols]
      exact BitVec.eq_of_toNat_eq (by simp)
    rw [hsplit, writeChunks, hfirst, hrest, hline, ih, State.memWrite]

/-- The store of a pair in the document's terms: `set(ENC10(addr), ENC40(v))` (R120). -/
theorem setNumeral_enc40 (s : State) (addr : Addr) (v : Acc) :
    setNumeral s (enc10 addr.toNat) (enc40 v.toNat) = storePair s addr v := by
  have haddr : dec (enc10 addr.toNat) = addr.toNat := by
    rw [enc10, dec_symbols]
    have := addr_lt addr
    omega
  have hlength : ((enc40 v.toNat).length + 3) / 4 = 2 := by simp [enc40]
  have hvalue : enc40 v.toNat = symbols (4 * 2) v.toNat := by rw [enc40, Nat.mod_eq_of_lt v.isLt]
  rw [setNumeral, haddr, hlength, hvalue, writeChunks_symbols, storePair]

/-! ## STA -/

/-- STA as the store of the pair, before the pair is taken apart into lines (R120). -/
theorem exec_sta_eq_storePair (s : State) (addr : Addr) :
    exec (.sta addr) s = .next ((storePair s addr s.a).setCir (lowLine s.a)) := rfl

/-- The two lines of a stored pair, and every other line (R120). -/
theorem storePair_read (s : State) (addr : Addr) (v : Acc) (x : Nat) : (storePair s addr v).read x =
    if x = nextAddr addr then highLine v else if x = addr.toNat then lowLine v else s.read x := by
  rw [storePair_eq, read_writeLine, read_writeLine]

theorem storePair_matAdds (s : State) (addr : Addr) (v : Acc) :
    MatAdds s (storePair s addr v) [addr.toNat, nextAddr addr] := by
  rw [storePair_eq]
  exact (matAdds_writeLine s _ _).trans (matAdds_writeLine _ _ _)

/-- Settles O43: the lines are those of the stored pair, and `set` of its text is the same write. -/
theorem staResultAndFrame : Obligations.StaResultAndFrame := by
  intro fc addr s
  obtain ⟨ha, hc, -, hengine⟩ := memWrite_fields s addr.toNat 2 s.a.toNat
  have hlow : (storePair s addr s.a).read addr.toNat = lowLine s.a := by
    rw [storePair_read, if_neg (nextAddr_ne addr).symm, if_pos rfl]
  have hhigh : (storePair s addr s.a).read (nextAddr addr) = highLine s.a := by rw [storePair_read, if_pos rfl]
  have hother (x : Nat) (hx : x ≠ addr.toNat) (hnext : x ≠ nextAddr addr) :
      (storePair s addr s.a).read x = s.read x := by
    rw [storePair_read, if_neg hnext, if_neg hx]
  refine ⟨encode_toNat fc (.sta addr), _, exec_sta_eq_storePair s addr, ?_, ?_, hother, lowLine_toNat s.a, ha, hc,
    storePair_matAdds s addr s.a, hengine, ?_⟩
  · rw [read_setCir, hlow, lowLine_toNat]
  · exact (congrArg BitVec.toNat hhigh).trans (highLine_toNat s.a)
  · rw [setNumeral_enc40, setCir_cir]

/-! ## LDA -/

/-- The frame of the operations that load `A` from a pair: they touch the two `V` bits and `A` only. -/
theorem materializePair_setA_frame (s : State) (x y : Nat) (v : Acc) :
    let t := ((s.materialize x).materialize y).setA v
    t.c = s.c ∧ t.cir = s.cir ∧ SameStore s t ∧ MatAdds s t [x, y] ∧ SameEngine s t :=
  ⟨rfl, rfl, fun _ => rfl, (matAdds_materialize s x).trans (matAdds_materialize _ y), rfl, rfl, rfl⟩

/-- Settles O44: the value of the pair fits the accumulator, so it is loaded without reduction. -/
theorem ldaResultAndFrame : Obligations.LdaResultAndFrame := by
  intro fc addr s
  exact ⟨encode_toNat fc (.lda addr), _, exec_lda s addr, sPairData_toNat s addr, materializePair_setA_frame ..⟩

/-! ## CLR -/

/-- Settles O45: CLR writes `A` alone and reads no operand. -/
theorem clrResultAndFrame : Obligations.ClrResultAndFrame := by
  intro fc addr s
  exact ⟨encode_toNat fc (.clr addr), _, exec_clr s addr, setA_a s 0, setA_c s 0, setA_cir s 0, read_setA s 0,
    MatAdds.refl s, setA_status s 0, setA_faultText s 0, setA_steps s 0⟩

end Sys2Proof.Machine
end

section
/-!
SUPPORT. Arithmetic (spec/44_arithmetic.md R124 to R127): the three accumulator results as numbers, and the cycle that fetches
a NEG line, with the settled statements about ADD, SUB, NEG and DBL. The three that read a pair share the frame of LDA,
`materializePair_setA_frame`.
-/

namespace Sys2Proof.Machine

/-! ## The accumulator results -/

theorem accAdd_toNat (x y : Acc) : (accAdd x y).toNat = (x.toNat + y.toNat) % 2 ^ 40 := BitVec.toNat_ofNat ..

theorem accDouble_toNat (y : Acc) : (accDouble y).toNat = 2 * y.toNat % 2 ^ 40 := BitVec.toNat_ofNat ..

/-- R125: the difference is the non-negative residue, an equation of integers. -/
theorem accSub_toNat_cast (x y : Acc) : ((accSub x y).toNat : Int) = ((x.toNat : Int) - y.toNat) % 2 ^ 40 := by
  rw [accSub, BitVec.toNat_ofInt]
  exact Int.toNat_of_nonneg (Int.emod_nonneg _ (by decide))

/-- A subtrahend that does not exceed the minuend needs no reduction (R125). -/
theorem accSub_toNat_of_le {x y : Acc} (h : y.toNat ≤ x.toNat) : (accSub x y).toNat = x.toNat - y.toNat := by
  have hresidue := accSub_toNat_cast x y
  have hx := x.isLt
  omega

/-- A larger subtrahend borrows 2^40 (R125). -/
theorem accSub_toNat_of_lt {x y : Acc} (h : x.toNat < y.toNat) : (accSub x y).toNat = x.toNat + 2 ^ 40 - y.toNat := by
  have hresidue := accSub_toNat_cast x y
  have hy := y.isLt
  omega

/-! ## ADD, SUB and DBL -/

/-- Settles O46: the operand is the pair, and the sum is reduced as R124 says. -/
theorem addResultAndFrame : Obligations.AddResultAndFrame := by
  intro fc addr s
  have hsum : (accAdd s.a (sPairData s addr).1).toNat = (s.a.toNat + pairAt s addr) % 2 ^ 40 := by
    rw [accAdd_toNat, sPairData_toNat]
  exact ⟨encode_toNat fc (.add addr), _, exec_add s addr, hsum, materializePair_setA_frame ..⟩

/-- Settles O47: the residue of the difference from the pair, with and without the borrow. -/
theorem subResultAndFrame : Obligations.SubResultAndFrame := by
  intro fc addr s
  rw [← sPairData_toNat]
  exact ⟨encode_toNat fc (.sub addr), _, exec_sub s addr, accSub_toNat_cast s.a _, accSub_toNat_of_le, accSub_toNat_of_lt,
    sPairData_toNat s addr, materializePair_setA_frame ..⟩

/-- Settles O49: the double of the pair is even, and stays even modulo 2^40; the old `A` is no operand. -/
theorem dblResultAndFrame : Obligations.DblResultAndFrame := by
  intro fc addr s
  have hdouble : (accDouble (sPairData s addr).1).toNat = 2 * pairAt s addr % 2 ^ 40 := by
    rw [accDouble_toNat, sPairData_toNat]
  have heven : (accDouble (sPairData s addr).1).toNat % 2 = 0 := by omega
  exact ⟨encode_toNat fc (.dbl addr), _, exec_dbl s addr, hdouble, heven, materializePair_setA_frame ..⟩

/-! ## NEG -/

/-- The cycle that fetches a NEG line: fetch stands, and the raised fault ends the cycle there (R126, R143). -/
theorem stepWith_of_neg {fc : FunctionCodes} {addr : Addr} {s : State} (hr : s.status = .running)
    (hneg : decode fc (s.read (nextAddr s.c)) = .neg addr) :
    stepWith fc s = .next ((fetch s).raise .unimplementedOperation) := by
  have hexec : exec (decode fc (s.read (nextAddr s.c))) (fetch s) =
      .next ((fetch s).raise .unimplementedOperation) := by rw [hneg, exec_neg]
  rw [stepWith_of_exec hr hexec, endCycle_raised _ _ (by simp)]

/-- Settles O48: raising writes `STATUS` alone, and in a cycle what fetch left stands. -/
theorem negRaisesUnimplemented : Obligations.NegRaisesUnimplemented := by
  refine ⟨fun fc addr s => ?_, fun fc addr s hr hneg => ?_⟩
  · exact ⟨encode_toNat fc (.neg addr), _, exec_neg s addr, raise_unimplemented_status s, raise_a .., raise_c ..,
      raise_cir .., read_raise s _, MatAdds.refl s, raise_unimplemented_faultText s, raise_steps ..⟩
  · have hstore : SameStore s ((fetch s).raise .unimplementedOperation) := fun x => by rw [read_raise, fetch_read]
    exact ⟨_, stepWith_of_neg hr hneg, raise_unimplemented_status _, fetch_a s, hstore,
      (congrArg BitVec.toNat (fetch_c s)).trans (toNat_add_one s.c), fetch_cir s, fetch_steps s⟩

end Sys2Proof.Machine
end

section
/-!
SUPPORT. NOP and INVALID (spec/45_nop_and_invalid.md R133, R134): the cycle that fetches a line of either kind, what ending a
completed cycle keeps, and the text of a line read back, with the settled statements about the two.
-/

namespace Sys2Proof.Machine

theorem fetch_sameStore (s : State) : SameStore s (fetch s) := fetch_read s

theorem fetch_c_toNat (s : State) : (fetch s).c.toNat = nextAddr s.c :=
  (congrArg BitVec.toNat (fetch_c s)).trans (toNat_add_one s.c)

/-! ## NOP -/

/-- Counting a cycle and testing for the halting loop touch neither `M` nor `V` (R104, R106). -/
theorem endCycle_sameStore {s u : State} (h : SameStore s u) (c0 : Addr) : SameStore s (endCycle c0 u) :=
  fun x => (read_endCycle u c0 x).trans (h x)

theorem endCycle_matAdds {s u : State} {xs : List Nat} (h : MatAdds s u xs) (c0 : Addr) :
    MatAdds s (endCycle c0 u) xs := fun x => by rw [isMat_endCycle, h x]

/-- R110: a completed cycle has a step record. -/
theorem stepRecord_isSome {fc : FunctionCodes} {s t : State} (ht : stepWith fc s = .next t) (hfree : FaultFree t) :
    (stepRecord fc s).isSome = true := by
  have hdone : t.status = .running ∨ t.status = .haltedLoop := hfree
  simp only [stepRecord, ht, if_pos hdone, Option.isSome_some]

/-- The cycle that fetches a NOP line is fetch and the end of the cycle (R133). -/
theorem stepWith_of_nop {fc : FunctionCodes} {addr : Addr} {s : State} (hr : s.status = .running)
    (hnop : decode fc (s.read (nextAddr s.c)) = .nop addr) : stepWith fc s = .next (endCycle s.c (fetch s)) := by
  have hexec : exec (decode fc (s.read (nextAddr s.c))) (fetch s) = .next (fetch s) := by rw [hnop, exec_nop]
  exact stepWith_of_exec hr hexec

/-- A cycle that is fetch alone counts and goes on: fetch has moved `C`, so the halting-loop test fails. -/
theorem endCycle_fetch_running {s : State} (hr : s.status = .running) :
    (endCycle s.c (fetch s)).steps = s.steps + 1 ∧ (endCycle s.c (fetch s)).status = .running := by
  have hmoved : (fetch s).c ≠ s.c := by rw [fetch_c]; exact c_add_one_ne s.c
  obtain ⟨hsteps, hstatus⟩ := endCycle_running s.c (fetch s) (by rw [fetch_status, hr])
  exact ⟨by rw [hsteps, fetch_steps], by rw [hstatus, if_neg hmoved]⟩

/-- Settles O50: the arm answers its own state, so the cycle does what fetch and the end of the cycle do. -/
theorem nopResultAndFrame : Obligations.NopResultAndFrame := by
  refine ⟨fun fc addr s => ⟨encode_toNat fc (.nop addr), exec_nop s addr⟩, fun fc addr s hr hnop => ?_⟩
  have hstep := stepWith_of_nop hr hnop
  obtain ⟨hsteps, hrunning⟩ := endCycle_fetch_running hr
  refine ⟨_, hstep, hrunning, hsteps, ?_, ?_, endCycle_matAdds (fetch_matAdds s) s.c, ?_,
    endCycle_sameStore (fetch_sameStore s) s.c, ?_, stepRecord_isSome hstep (.inl hrunning)⟩
  · rw [endCycle_c]
    exact fetch_c_toNat s
  · rw [endCycle_cir]
    exact fetch_cir s
  · rw [endCycle_a, fetch_a]
  · rw [endCycle_faultText, fetch_faultText]

/-! ## INVALID -/

/-- R88 at the width of a line: its text stands for the whole line. -/
theorem dec_enc20_line (l : Line) : dec (enc20 l.toNat) = l.toNat := by
  have hline := l.isLt
  rw [enc20, dec_symbols]
  omega

/-- The cycle that fetches a line of an unassigned code: fetch stands, and the raised fault, carrying the line, ends the cycle
there (R134, R143). -/
theorem stepWith_of_unassigned {fc : FunctionCodes} {s : State} (hr : s.status = .running)
    (hnone : decodeFC fc (lineFc (s.read (nextAddr s.c))) = none) :
    stepWith fc s = .next ((fetch s).raise (.invalidInstruction (s.read (nextAddr s.c)))) := by
  have hexec : exec (decode fc (s.read (nextAddr s.c))) (fetch s) =
      .next ((fetch s).raise (.invalidInstruction (s.read (nextAddr s.c)))) := by
    rw [decode_none hnone, exec_invalid, fetch_cir]
  rw [stepWith_of_exec hr hexec, endCycle_raised _ _ (by simp)]

/-- Settles O51: raising writes `STATUS` and `FAULT_TEXT` alone, and in a cycle the line in `CIR` is the one fetched. -/
theorem invalidRaisesInvalidInstruction : Obligations.InvalidRaisesInvalidInstruction := by
  refine ⟨fun addr c s => ?_, fun fc s hr hcode => ?_⟩
  · exact ⟨_, exec_invalid s addr c, raise_invalid_status s s.cir, raise_invalid_faultText s s.cir, raise_a .., raise_c ..,
      raise_cir .., read_raise s _, MatAdds.refl s, raise_steps ..⟩
  · have hnone : decodeFC fc (lineFc (s.read (nextAddr s.c))) = none := (decodeFC_eq_none_iff fc _).mpr hcode
    exact ⟨_, stepWith_of_unassigned hr hnone, raise_invalid_status .., raise_invalid_faultText .., dec_enc20_line _,
      fetch_a s, fetch_sameStore s, fetch_c_toNat s, fetch_cir s, fetch_steps s⟩

end Sys2Proof.Machine
end

section
/-!
SUPPORT. The Symbol Codec's round trips (spec/40_symbol_codec.md R86, R88, R93): the three encoders as one division loop, and
text under an alphabet, with the settled statements about them.
-/

namespace Sys2Proof.Machine

/-! ## The three widths -/

/-- The modulus of an encoder is what its number of symbols can hold, so the reduction before the loop is the loop's own. -/
theorem enc10_eq_symbols (n : Nat) : enc10 n = symbols 2 n := symbols_mod 2 n

theorem enc20_eq_symbols (n : Nat) : enc20 n = symbols 4 n := symbols_mod 4 n

theorem enc40_eq_symbols (n : Nat) : enc40 n = symbols 8 n := symbols_mod 8 n

theorem dec_enc10 (n : Nat) : dec (enc10 n) = n % 2 ^ 10 := by
  rw [enc10_eq_symbols]
  exact dec_symbols 2 n

theorem dec_enc20 (n : Nat) : dec (enc20 n) = n % 2 ^ 20 := by
  rw [enc20_eq_symbols]
  exact dec_symbols 4 n

theorem dec_enc40 (n : Nat) : dec (enc40 n) = n % 2 ^ 40 := by
  rw [enc40_eq_symbols]
  exact dec_symbols 8 n

/-- A numeral of the loop's length is what the loop writes for its value. -/
theorem symbols_dec_of_length {s : Numeral} {w : Nat} (hs : s.length = w) : symbols w (dec s) = s := by
  rw [← hs, symbols_dec]

/-- Settles O10: each encoder is the loop at its own width, whose reading and writing are inverse. -/
theorem codecRoundTrips : Obligations.CodecRoundTrips := by
  refine ⟨fun n => ⟨dec_enc10 n, dec_enc20 n, dec_enc40 n, fun hn => ?_, fun hn => ?_, fun hn => ?_,
    length_symbols 2 _, length_symbols 4 _, length_symbols 8 _⟩, fun s => ⟨fun hs => ?_, fun hs => ?_, fun hs => ?_⟩⟩
  · rw [dec_enc10, Nat.mod_eq_of_lt hn]
  · rw [dec_enc20, Nat.mod_eq_of_lt hn]
  · rw [dec_enc40, Nat.mod_eq_of_lt hn]
  · rw [enc10_eq_symbols, symbols_dec_of_length hs]
  · rw [enc20_eq_symbols, symbols_dec_of_length hs]
  · rw [enc40_eq_symbols, symbols_dec_of_length hs]

/-- Settles O11: the loop's first four symbols see the low line, and it goes on with the quotient. -/
theorem accumulatorTextIsTwoLines : Obligations.AccumulatorTextIsTwoLines := by
  intro n
  have hlow : enc20 (n % 2 ^ 20) = symbols 4 n := (enc20_eq_symbols _).trans (symbols_mod 4 n)
  have hhigh : enc20 (n / 2 ^ 20 % 2 ^ 20) = symbols 4 (n / 2 ^ 20) :=
    (enc20_eq_symbols _).trans (symbols_mod 4 (n / 2 ^ 20))
  rw [hlow, hhigh, enc40_eq_symbols]
  exact symbols_add 4 4 n

/-! ## Text -/

/-- A character that stands for a symbol is that symbol's glyph, under any alphabet (R78). -/
theorem glyphOf_of_valueOf {al : Alphabet} {ch : Char} {x : Symbol} (h : valueOf al ch = some x) : glyphOf al x = ch := by
  obtain ⟨i, hi, rfl⟩ := Option.map_eq_some_iff.mp h
  rw [List.idxOf?, List.findIdx?_eq_some_iff_getElem] at hi
  obtain ⟨hlt, hglyph, _⟩ := hi
  have hsymbol : (BitVec.ofNat 5 i).toNat = i := by
    rw [BitVec.toNat_ofNat]
    exact Nat.mod_eq_of_lt (by rwa [al.complete] at hlt)
  simpa only [glyphOf, hsymbol, beq_iff_eq] using hglyph

/-- A text with a first character parses when the character is a glyph and the rest parses (R93). -/
theorem parseText_cons_eq_some_iff {al : Alphabet} {ch : Char} {t : List Char} {s : Numeral} :
    parseText al (ch :: t) = some s ↔ ∃ x r, valueOf al ch = some x ∧ parseText al t = some r ∧ s = x :: r := by
  cases hx : valueOf al ch <;> cases hr : parseText al t <;> simp [parseText, hx, hr, eq_comm]

theorem parseText_printText (al : Alphabet) (s : Numeral) : parseText al (printText al s) = some s := by
  induction s with
  | nil => rfl
  | cons x s ih => exact parseText_cons_eq_some_iff.mpr ⟨x, s, valueOf_glyphOf al x, ih, rfl⟩

theorem printText_of_parseText {al : Alphabet} {t : List Char} {s : Numeral} (h : parseText al t = some s) :
    printText al s = t := by
  induction t generalizing s with
  | nil =>
    cases h
    rfl
  | cons ch t ih =>
    obtain ⟨x, r, hx, hr, rfl⟩ := parseText_cons_eq_some_iff.mp h
    rw [printText, List.map_cons, glyphOf_of_valueOf hx]
    exact congrArg (ch :: ·) (ih hr)

/-- Settles O12: glyphs and symbols stand for each other, so by induction on the text do texts and numerals. -/
theorem textRoundTrips : Obligations.TextRoundTrips := fun al =>
  ⟨parseText_printText al, fun _ _ => printText_of_parseText⟩

end Sys2Proof.Machine
end

section
/-!
SUPPORT. Encoding and decoding (spec/30_encoding.md R62 to R76): an instruction is an operation with its operand or INVALID,
a line is its two fields, and decoding by bits, by text and assembling agree, with the settled statements about them.
-/

namespace Sys2Proof.Machine

/-! ## An instruction as an operation with its operand -/

/-- An instruction is one of the ten operations with an operand, or INVALID (R63, R66). -/
theorem instr_eq_op_or_invalid (i : Instr) : (∃ o a, i = Op.instr a o) ∨ ∃ a c, i = .invalid a c := by
  cases i
  case invalid a c => exact .inr ⟨a, c, rfl⟩
  case cba a => exact .inl ⟨.cba, a, rfl⟩
  case ubr a => exact .inl ⟨.ubr, a, rfl⟩
  case sta a => exact .inl ⟨.sta, a, rfl⟩
  case lda a => exact .inl ⟨.lda, a, rfl⟩
  case clr a => exact .inl ⟨.clr, a, rfl⟩
  case add a => exact .inl ⟨.add, a, rfl⟩
  case sub a => exact .inl ⟨.sub, a, rfl⟩
  case neg a => exact .inl ⟨.neg, a, rfl⟩
  case dbl a => exact .inl ⟨.dbl, a, rfl⟩
  case nop a => exact .inl ⟨.nop, a, rfl⟩

@[simp] theorem op_instr_addr (o : Op) (a : Addr) : (o.instr a).addr = a := by cases o <;> rfl

@[simp] theorem op_instr_fnCode (fc : FunctionCodes) (o : Op) (a : Addr) : (o.instr a).fnCode fc = fc.code o := by
  cases o <;> rfl

@[simp] theorem op_instr_wf (fc : FunctionCodes) (o : Op) (a : Addr) : (o.instr a).wf fc = true := by cases o <;> rfl

/-- INVALID is well-formed just when its code matches no operation (R70). -/
theorem invalid_wf_iff (fc : FunctionCodes) (a : Addr) (c : FnCode) :
    (Instr.invalid a c).wf fc = true ↔ decodeFC fc c = none := by
  rw [decodeFC_eq_none_iff, Instr.wf, Bool.not_eq_true', ← Bool.not_eq_true, assigned_iff, not_exists]

/-! ## Decoding and assembling -/

/-- R62: a line is its two fields put together. -/
@[simp] theorem mkLine_fields (l : Line) : mkLine (lineAddr l) (lineFc l) = l := by
  apply BitVec.eq_of_toNat_eq
  rw [mkLine_toNat, lineAddr_toNat, lineFc_toNat, Nat.mod_add_div]

/-- A function code put into a line is the one decoding matches (R66, R76). -/
theorem decodeFC_encode (fc : FunctionCodes) (i : Instr) :
    decodeFC fc (lineFc (encode fc i)) = decodeFC fc (i.fnCode fc) :=
  congrArg (decodeFC fc) (lineFc_mkLine i.addr (i.fnCode fc))

/-- Settles O1: the line keeps both fields, and its code matches the instruction's own operation or, for INVALID, none. -/
theorem decodeEncodeRoundTrip : Obligations.DecodeEncodeRoundTrip := by
  intro fc i hwf
  have haddr : lineAddr (encode fc i) = i.addr := lineAddr_mkLine i.addr (i.fnCode fc)
  have hcode := decodeFC_encode fc i
  obtain ⟨o, a, rfl⟩ | ⟨a, c, rfl⟩ := instr_eq_op_or_invalid i
  · rw [op_instr_fnCode, decodeFC_of_code] at hcode
    rw [decode_some hcode, haddr, op_instr_addr]
  · have hfc : lineFc (encode fc (.invalid a c)) = c := lineFc_mkLine a c
    rw [decode_none (hcode.trans ((invalid_wf_iff fc a c).mp hwf)), haddr, hfc, Instr.addr]

/-- Settles O2: the decoded operation's code is the one in the line, and INVALID keeps the code it was given. -/
theorem encodeDecodeRoundTrip : Obligations.EncodeDecodeRoundTrip := by
  intro fc l
  cases h : decodeFC fc (lineFc l) with
  | some o =>
    have hcode : fc.code o = lineFc l := (decodeFC_eq_some_iff fc _ o).mp h
    rw [decode_some h]
    exact ⟨op_instr_wf fc o _, by rw [encode, op_instr_addr, op_instr_fnCode, hcode, mkLine_fields]⟩
  | none =>
    rw [decode_none h]
    exact ⟨(invalid_wf_iff fc _ _).mpr h, mkLine_fields l⟩

/-! ## Decoding by text -/

/-- R88 at the width of a field: its text stands for it. -/
theorem dec_enc10_field (x : BitVec 10) : dec (enc10 x.toNat) = x.toNat := by
  rw [dec_enc10, Nat.mod_eq_of_lt x.isLt]

/-- Two fields with one text are the same field (R91). -/
theorem enc10_field_inj (x y : BitVec 10) : enc10 x.toNat = enc10 y.toNat ↔ x = y := by
  refine ⟨fun h => BitVec.eq_of_toNat_eq ?_, fun h => by rw [h]⟩
  rw [← dec_enc10_field x, h, dec_enc10_field]

/-- R65: matching the text of a function code is matching the code. -/
theorem find_text_eq_decodeFC (fc : FunctionCodes) (c : FnCode) :
    (Op.all.find? fun o => enc10 (fc.code o).toNat == enc10 c.toNat) = decodeFC fc c := by
  have hmatch (o : Op) : (enc10 (fc.code o).toNat == enc10 c.toNat) = (fc.code o == c) := by
    rw [Bool.eq_iff_iff, beq_iff_eq, beq_iff_eq, enc10_field_inj]
  simp only [hmatch, decodeFC]

/-- Settles O3: the first two symbols are the text of the address and the last two that of the code (R62). -/
theorem decodeByTextIsDecodeByBits : Obligations.DecodeByTextIsDecodeByBits := by
  intro fc l
  have hlength : (enc10 (lineAddr l).toNat).length = 2 := length_symbols 2 _
  have haddr : (enc20 l.toNat).take 2 = enc10 (lineAddr l).toNat := by rw [enc20_line, List.take_left' hlength]
  have hcode : (enc20 l.toNat).drop 2 = enc10 (lineFc l).toNat := by rw [enc20_line, List.drop_left' hlength]
  have hvalue (x : BitVec 10) : BitVec.ofNat 10 (dec (enc10 x.toNat)) = x := by
    rw [dec_enc10_field, BitVec.ofNat_toNat, BitVec.setWidth_eq]
  cases h : decodeFC fc (lineFc l) with
  | some o => simp only [decode_some h, decodeByText, haddr, hcode, hvalue, find_text_eq_decodeFC, h]
  | none => simp only [decode_none h, decodeByText, haddr, hcode, hvalue, find_text_eq_decodeFC, h]

/-! ## The unassigned codes -/

/-- The function codes of the ten operations, as numbers. -/
def assignedCodes (fc : FunctionCodes) : Finset Nat := (Op.all.map fun o => (fc.code o).toNat).toFinset

theorem mem_assignedCodes {fc : FunctionCodes} {n : Nat} :
    n ∈ assignedCodes fc ↔ ∃ o, (fc.code o).toNat = n := by
  simp [assignedCodes, Op.mem_all]

/-- The ten codes are distinct (R63). -/
theorem card_assignedCodes (fc : FunctionCodes) : (assignedCodes fc).card = 10 := by
  have hinj : Function.Injective fun o => (fc.code o).toNat :=
    fun o p h => fc.injective o p (BitVec.eq_of_toNat_eq h)
  have hall : Op.all.Nodup := by decide
  rw [assignedCodes, List.toFinset_card_of_nodup (hall.map hinj), List.length_map]
  rfl

/-- A number below 1024 is an unassigned code just when it is none of the ten (R66). -/
theorem decodeFC_ofNat_eq_none_iff (fc : FunctionCodes) {n : Nat} (hn : n < 1024) :
    decodeFC fc (BitVec.ofNat 10 n) = none ↔ n ∉ assignedCodes fc := by
  have hvalue (c : FnCode) : c = BitVec.ofNat 10 n ↔ c.toNat = n := by
    rw [← BitVec.toNat_inj, BitVec.toNat_ofNat, Nat.mod_eq_of_lt hn]
  simp only [decodeFC_eq_none_iff, mem_assignedCodes, not_exists, ne_eq, hvalue]

/-- Settles O6: the unassigned codes are the 1024 without the ten. -/
theorem unassignedCodesAreManyAndInvalid : Obligations.UnassignedCodesAreManyAndInvalid := by
  intro fc
  have hsub : assignedCodes fc ⊆ Finset.range 1024 := fun n hn => by
    obtain ⟨o, rfl⟩ := mem_assignedCodes.mp hn
    exact Finset.mem_range.mpr (fc.code o).isLt
  have hfilter : ((Finset.range 1024).filter fun n => decodeFC fc (BitVec.ofNat 10 n) = none) =
      Finset.range 1024 \ assignedCodes fc := by
    rw [Finset.sdiff_eq_filter]
    exact Finset.filter_congr fun n hn => decodeFC_ofNat_eq_none_iff fc (Finset.mem_range.mp hn)
  rw [hfilter, Finset.card_sdiff_of_subset hsub, Finset.card_range, card_assignedCodes]

/-! ## The reference codes -/

/-- Settles O7: twelve closed words, decoded under FC_REF. -/
theorem referenceWordsDecode : Obligations.ReferenceWordsDecode := by
  unfold Obligations.ReferenceWordsDecode
  decide

/-- Settles O8: the ten rows of the reference table, printed under ALPHABET_REF. -/
theorem referenceCodesAndTexts : Obligations.ReferenceCodesAndTexts := by
  unfold Obligations.ReferenceCodesAndTexts
  decide

end Sys2Proof.Machine
end

section
/-!
SUPPORT. The whole cycle (spec/41_cycle_fetch_decode_run.md R102 to R106): the state executing an instruction leaves, item by
item, the three ways a cycle ends, and the value a taken branch loads, with the settled statements about a cycle.
-/

namespace Sys2Proof.Machine

/-! ## The state an instruction leaves -/

/-- The state `exec` answers: it answers one for every instruction (`exec_eq_execState`). -/
def execState (i : Instr) (s : State) : State :=
  match exec i s with
  | .next t => t
  | .fault _ => s
  | .refused _ => s

theorem execState_of_exec {i : Instr} {s t : State} (h : exec i s = .next t) : execState i s = t := by
  simp only [execState, h]

theorem exec_eq_execState (i : Instr) (s : State) : exec i s = .next (execState i s) := by
  obtain ⟨t, ht⟩ := exec_answers i s
  rw [ht, execState_of_exec ht]

section Equations
variable (s : State) (x : Addr)

@[simp] theorem execState_cba : execState (.cba x) s =
    (s.materialize x.toNat).setC (if signBit s.a then s.c else branchValue (s.read x.toNat)) :=
  execState_of_exec (exec_cba_eq_setC s x)

@[simp] theorem execState_ubr :
    execState (.ubr x) s = (s.materialize x.toNat).setC (branchValue (s.read x.toNat)) :=
  execState_of_exec (exec_ubr s x)

@[simp] theorem execState_sta : execState (.sta x) s = (storePair s x s.a).setCir (lowLine s.a) := rfl

@[simp] theorem execState_lda : execState (.lda x) s =
    ((s.materialize x.toNat).materialize (nextAddr x)).setA (sPairData s x).1 :=
  execState_of_exec (exec_lda s x)

@[simp] theorem execState_clr : execState (.clr x) s = s.setA 0 := rfl

@[simp] theorem execState_add : execState (.add x) s =
    ((s.materialize x.toNat).materialize (nextAddr x)).setA (accAdd s.a (sPairData s x).1) :=
  execState_of_exec (exec_add s x)

@[simp] theorem execState_sub : execState (.sub x) s =
    ((s.materialize x.toNat).materialize (nextAddr x)).setA (accSub s.a (sPairData s x).1) :=
  execState_of_exec (exec_sub s x)

@[simp] theorem execState_neg : execState (.neg x) s = s.raise .unimplementedOperation := rfl

@[simp] theorem execState_dbl : execState (.dbl x) s =
    ((s.materialize x.toNat).materialize (nextAddr x)).setA (accDouble (sPairData s x).1) :=
  execState_of_exec (exec_dbl s x)

@[simp] theorem execState_nop : execState (.nop x) s = s := rfl

@[simp] theorem execState_invalid (c : FnCode) :
    execState (.invalid x c) s = s.raise (.invalidInstruction s.cir) := rfl

end Equations

/-- Executing writes `A` for five operations only. -/
theorem execState_a_ne {i : Instr} {s : State} (h : (execState i s).a ≠ s.a) :
    ∃ x, i = .lda x ∨ i = .clr x ∨ i = .add x ∨ i = .sub x ∨ i = .dbl x := by
  cases i
  case lda x | clr x | add x | sub x | dbl x => exact ⟨x, by simp⟩
  case sta x => exact absurd (memWrite_fields s x.toNat 2 s.a.toNat).1 h
  case cba | ubr | neg | nop | invalid => simp at h

/-- Executing writes lines for STA only, and its own two. -/
theorem execState_read_ne {i : Instr} {s : State} {y : Nat} (h : (execState i s).read y ≠ s.read y) :
    ∃ x : Addr, i = .sta x ∧ (y = x.toNat ∨ y = nextAddr x) := by
  cases i
  case sta x =>
    refine ⟨x, rfl, ?_⟩
    by_contra hother
    obtain ⟨hx, hnext⟩ := not_or.mp hother
    rw [execState_sta, read_setCir, storePair_read, if_neg hnext, if_neg hx] at h
    exact h rfl
  all_goals simp at h

/-- Executing loads `CIR` for STA only. -/
theorem execState_cir_ne {i : Instr} {s : State} (h : (execState i s).cir ≠ s.cir) : ∃ x, i = .sta x := by
  cases i
  case sta x => exact ⟨x, rfl⟩
  all_goals simp at h

/-- Executing writes `FAULT_TEXT` for INVALID only. -/
theorem execState_faultText_ne {i : Instr} {s : State} (h : (execState i s).faultText ≠ s.faultText) :
    ∃ x c, i = .invalid x c := by
  obtain ⟨_, ⟨_, hraise⟩ | ⟨hi, _⟩ | ⟨_, htext⟩⟩ := exec_engine (exec_eq_execState i s)
  · exact absurd (by rw [hraise, raise_unimplemented_faultText]) h
  · exact hi
  · exact absurd htext h

/-- The lines an instruction reads or writes as its operand (R101). -/
def operandLines : Instr → List Nat
  | .cba x | .ubr x => [x.toNat]
  | .sta x | .lda x | .add x | .sub x | .dbl x => [x.toNat, nextAddr x]
  | .clr _ | .nop _ | .neg _ | .invalid _ _ => []

/-- Executing materializes the operand's lines and no other. -/
theorem execState_matAdds (i : Instr) (s : State) : MatAdds s (execState i s) (operandLines i) := by
  cases i
  case cba x =>
    rw [execState_cba]
    exact matAdds_materialize s x.toNat
  case ubr x =>
    rw [execState_ubr]
    exact matAdds_materialize s x.toNat
  case sta x => exact storePair_matAdds s x s.a
  case clr | nop | neg | invalid => exact MatAdds.refl s
  all_goals
    intro y
    simp [operandLines, or_assoc]

/-- A branch touches `V[x]` and `C` only, taken or not. -/
theorem execState_of_branch {i : Instr} {x : Addr} (hi : i = .ubr x ∨ i = .cba x) (s : State) :
    ∃ v, execState i s = (s.materialize x.toNat).setC v := by
  obtain rfl | rfl := hi
  · exact ⟨_, execState_ubr s x⟩
  · exact ⟨_, execState_cba s x⟩

/-! ## The value a taken branch loads -/

/-- The value a taken branch loads into `C`; `none` for a branch that falls through and for every other instruction. -/
def takenTarget (s : State) : Instr → Option Addr
  | .ubr x => some (branchValue (s.read x.toNat))
  | .cba x => if signBit s.a then none else some (branchValue (s.read x.toNat))
  | _ => none

theorem takenTarget_eq_some_iff {s : State} {i : Instr} {v : Addr} : takenTarget s i = some v ↔
    ∃ x, (i = .ubr x ∨ (i = .cba x ∧ signBit s.a = false)) ∧ branchValue (s.read x.toNat) = v := by
  cases i
  case cba x => cases hsign : signBit s.a <;> simp [takenTarget, hsign]
  all_goals simp [takenTarget]

theorem takenTarget_fetch (s : State) (i : Instr) : takenTarget (fetch s) i = takenTarget s i := by
  cases i <;> simp only [takenTarget, fetch_read, fetch_a]

/-- Executing loads `C` by a taken branch only. -/
theorem execState_c (i : Instr) (s : State) : (execState i s).c = (takenTarget s i).getD s.c := by
  cases i
  case cba x =>
    rw [execState_cba, setC_c, takenTarget]
    cases signBit s.a <;> rfl
  case sta x => exact (memWrite_fields s x.toNat 2 s.a.toNat).2.1
  all_goals simp [takenTarget]

/-! ## The step -/

/-- A terminal machine is stuck (R109, R115). -/
theorem stepWith_of_terminal (fc : FunctionCodes) {s : State} (hs : s.status ≠ .running) :
    stepWith fc s = .fault (.stuck s.status) := by
  rw [stepWith, if_neg hs]

/-- Settles O30: a Running machine steps and a terminal one is stuck, which exclude each other. -/
theorem stepIsEnabledExactlyWhenRunning : Obligations.StepIsEnabledExactlyWhenRunning := by
  refine fun fc s => ⟨⟨stepWith_running fc, fun ⟨t, ht⟩ => (stepWith_cases ht).1⟩, stepWith_of_terminal fc,
    fun hstuck hr => ?_⟩
  obtain ⟨t, ht⟩ := stepWith_running fc hr
  rw [hstuck] at ht
  cases ht

/-- Settles O29: the cycle's end writes `STATUS` and `STEPS` alone, and only when nothing was raised. -/
theorem stepRunsTheDecodedInstruction : Obligations.StepRunsTheDecodedInstruction := by
  refine ⟨fun fc s u i hr hi hu => ?_, fun s => rfl⟩
  subst hi
  refine ⟨_, stepWith_of_exec hr hu, endCycle_a .., endCycle_c .., endCycle_cir .., endCycle_mem .., endCycle_mat ..,
    endCycle_faultText .., fun hraised => ?_, endCycle_running s.c u⟩
  rw [endCycle_raised s.c u hraised]
  exact ⟨rfl, rfl⟩

section Cycle
variable {fc : FunctionCodes} {s t : State} (h : stepWith fc s = .next t)
include h

/-- A step is the end of the cycle on what the fetched line's instruction leaves. -/
theorem stepWith_eq_endCycle : t = endCycle s.c (execState (decode fc (s.read (nextAddr s.c))) (fetch s)) := by
  obtain ⟨_, u, hu, ht⟩ := stepWith_cases h
  rw [ht, execState_of_exec hu]

/-- The three ways a cycle ends: on an unassigned code, on NEG, or completed with the halting-loop test (R96). -/
theorem stepWith_outcome :
    (decodeFC fc (lineFc (s.read (nextAddr s.c))) = none ∧
      t = (fetch s).raise (.invalidInstruction (s.read (nextAddr s.c)))) ∨
    (decodeFC fc (lineFc (s.read (nextAddr s.c))) = some .neg ∧ t = (fetch s).raise .unimplementedOperation) ∨
    ((∃ o, decodeFC fc (lineFc (s.read (nextAddr s.c))) = some o ∧ o ≠ .neg) ∧
      t.status = if t.c = s.c then .haltedLoop else .running) := by
  have hr := (stepWith_cases h).1
  cases hcode : decodeFC fc (lineFc (s.read (nextAddr s.c))) with
  | none =>
    rw [stepWith_of_unassigned hr hcode] at h
    cases h
    exact .inl ⟨rfl, rfl⟩
  | some o =>
    by_cases ho : o = .neg
    · subst ho
      rw [stepWith_of_neg hr (decode_some hcode)] at h
      cases h
      exact .inr (.inl ⟨rfl, rfl⟩)
    · exact .inr (.inr ⟨⟨o, rfl, ho⟩, stepWith_status_of_ne_neg h hcode ho⟩)

theorem stepWith_c : t.c = (takenTarget s (decode fc (s.read (nextAddr s.c)))).getD (s.c + 1) := by
  rw [stepWith_eq_endCycle h, endCycle_c, execState_c, takenTarget_fetch, fetch_c]

/-- Only a taken branch to the value `C` had before the fetch halts (R105): everything else moves `C`. -/
theorem stepWith_halts_iff :
    t.status = .haltedLoop ↔ takenTarget s (decode fc (s.read (nextAddr s.c))) = some s.c := by
  have hc := stepWith_c h
  obtain ⟨hcode, rfl⟩ | ⟨hcode, rfl⟩ | ⟨_, hstatus⟩ := stepWith_outcome h
  · simp [decode_none hcode, takenTarget]
  · simp [decode_some hcode, Op.instr, takenTarget]
  · have hhalt : t.status = .haltedLoop ↔ t.c = s.c := by
      rw [hstatus]
      by_cases hback : t.c = s.c
      · simp only [hback, if_true]
      · simp only [hback, if_false, reduceCtorEq]
    rw [hhalt, hc]
    cases takenTarget s (decode fc (s.read (nextAddr s.c))) with
    | none => simp only [Option.getD_none, c_add_one_ne, reduceCtorEq]
    | some v => simp only [Option.getD_some, Option.some.injEq]

/-- What a cycle materializes: the line fetched and the operand's lines. -/
theorem stepWith_matAdds :
    MatAdds s t (nextAddr s.c :: operandLines (decode fc (s.read (nextAddr s.c)))) := by
  have hexec := (fetch_matAdds s).trans (execState_matAdds (decode fc (s.read (nextAddr s.c))) (fetch s))
  rw [stepWith_eq_endCycle h]
  exact endCycle_matAdds hexec s.c

end Cycle

/-- Settles O33: the value a taken branch loads, and otherwise the address fetched from. -/
theorem pcAfterEachOperation : Obligations.PcAfterEachOperation := by
  intro fc s t h
  have hline : s.read ((s.c.toNat + 1) % 1024) = s.read (nextAddr s.c) := rfl
  rw [stepWith_c h, hline]
  cases decode fc (s.read (nextAddr s.c))
  case ubr x => exact branchValue_toNat _
  case cba x =>
    by_cases hsign : s.a.toNat < 2 ^ 39
    · have hclear : signBit s.a = false := by rw [← Bool.not_eq_true, signBit_iff]; omega
      simp only [takenTarget, hclear, hsign, if_true, Bool.false_eq_true, if_false, Option.getD_some, branchValue_toNat]
    · have hset : signBit s.a = true := (signBit_iff s.a).mpr (by omega)
      simp only [takenTarget, hset, hsign, if_true, if_false, Option.getD_none]
      exact toNat_add_one s.c
  all_goals exact toNat_add_one s.c

/-- Settles O32: R105's condition read as numbers. -/
theorem haltsExactlyAtATakenBranchToBefore : Obligations.HaltsExactlyAtATakenBranchToBefore := by
  intro fc s t h
  have hsign : signBit s.a = false ↔ s.a.toNat < 2 ^ 39 := by
    rw [← Bool.not_eq_true, signBit_iff, Nat.not_le]
  have htarget (l : Line) : branchValue l = s.c ↔ l.toNat % 1024 = s.c.toNat := by
    rw [← branchValue_toNat, BitVec.toNat_inj]
  rw [stepWith_halts_iff h, takenTarget_eq_some_iff]
  simp only [hsign, htarget]
  rfl

/-- Settles O38: fetch materializes its line, the operand form its own, and the end of the cycle none. -/
theorem linesEachCycleMaterializes : Obligations.LinesEachCycleMaterializes :=
  fun _ _ _ h => stepWith_matAdds h

/-- Settles O37: each item is kept by fetch and by the end of the cycle, so what executing writes is all a cycle writes. -/
theorem writersOfEachItem : Obligations.WritersOfEachItem := by
  intro fc s t h
  have ht := stepWith_eq_endCycle h
  have ha : t.a = (execState (decode fc (s.read (nextAddr s.c))) (fetch s)).a := by rw [ht, endCycle_a]
  have hread (y : Nat) : t.read y = (execState (decode fc (s.read (nextAddr s.c))) (fetch s)).read y := by
    rw [ht, read_endCycle]
  have htext : t.faultText = (execState (decode fc (s.read (nextAddr s.c))) (fetch s)).faultText := by
    rw [ht, endCycle_faultText]
  have hcir : t.cir = (execState (decode fc (s.read (nextAddr s.c))) (fetch s)).cir := by rw [ht, endCycle_cir]
  refine ⟨fun hne => ?_, fun y hne => ?_, fun hne => ?_, fun y hy => ?_, fun hne => ?_⟩
  · exact execState_a_ne (by rwa [ha, ← fetch_a s] at hne)
  · exact execState_read_ne (by rwa [hread, ← fetch_read s] at hne)
  · exact execState_faultText_ne (by rwa [htext, ← fetch_faultText s] at hne)
  · exact (stepWith_matAdds h y).mpr (.inl hy)
  · have hfetched : (fetch s).cir = s.read ((s.c.toNat + 1) % 1024) := fetch_cir s
    exact execState_cir_ne (by rwa [hcir, ← hfetched] at hne)

/-! ## A faulting cycle -/

/-- R143: a cycle that left a fatal fault has no step record. -/
theorem stepRecord_of_fault {fc : FunctionCodes} {s t : State} (h : stepWith fc s = .next t) (hfault : ¬ FaultFree t) :
    stepRecord fc s = none := by
  have hraised : ¬ (t.status = .running ∨ t.status = .haltedLoop) := hfault
  simp only [stepRecord, h, if_neg hraised]

theorem not_faultFree {s : State} (hs : s.status = .faultInvalid ∨ s.status = .faultUnimplemented) : ¬ FaultFree s := by
  rcases hs with hs | hs <;> simp [FaultFree, hs]

/-- What fetch leaves stands after either raise (R143). -/
theorem fetch_raise_leaves (s : State) (f : FatalFault) :
    ((fetch s).raise f).c.toNat = nextAddr s.c ∧ ((fetch s).raise f).cir = s.read (nextAddr s.c) ∧
      MatAdds s ((fetch s).raise f) [nextAddr s.c] ∧ ((fetch s).raise f).a = s.a ∧
      SameStore s ((fetch s).raise f) ∧ ((fetch s).raise f).steps = s.steps :=
  ⟨by rw [raise_c, fetch_c_toNat], by rw [raise_cir, fetch_cir], fun x => by rw [isMat_raise, fetch_matAdds s x],
    by rw [raise_a, fetch_a], fun x => by rw [read_raise, fetch_read], by rw [raise_steps, fetch_steps]⟩

/-- Settles O34: both faults raise on the state fetch leaves, and a completed cycle leaves neither. -/
theorem faultingCycleLeaves : Obligations.FaultingCycleLeaves := by
  intro fc s t h hfault
  have hrecord := stepRecord_of_fault h (not_faultFree hfault)
  obtain ⟨_, rfl⟩ | ⟨_, rfl⟩ | ⟨_, hstatus⟩ := stepWith_outcome h
  · obtain ⟨hc, hcir, hmat, ha, hstore, hsteps⟩ := fetch_raise_leaves s (.invalidInstruction (s.read (nextAddr s.c)))
    exact ⟨hc, hcir, hmat, ha, hstore, hsteps, fun _ => rfl, nofun, hrecord⟩
  · obtain ⟨hc, hcir, hmat, ha, hstore, hsteps⟩ := fetch_raise_leaves s .unimplementedOperation
    exact ⟨hc, hcir, hmat, ha, hstore, hsteps, nofun, fun _ => fetch_faultText s, hrecord⟩
  · rw [hstatus] at hfault
    split at hfault <;> simp at hfault

/-! ## The invariant -/

/-- While Running the invariant asks for the store's alone. -/
theorem Inv.of_running {fc : FunctionCodes} {s : State} (hs : StoreInv s) (hr : s.status = .running) : Inv fc s where
  store := hs
  halted h := by rw [hr] at h; cases h
  invalid h := by rw [hr] at h; cases h
  unimplemented h := by rw [hr] at h; cases h

theorem storeInv_reset : StoreInv State.reset where
  memWf := reset_mem_wf
  matRising := ⟨List.Pairwise.nil, nofun⟩
  zeroUnlessMat x _ := reset_read x

/-- Settles O27: the reset state is Running, with an empty store. -/
theorem resetMeetsTheInvariant : Obligations.ResetMeetsTheInvariant := fun _ =>
  Inv.of_running storeInv_reset rfl

theorem StoreInv.stepWith {fc : FunctionCodes} {s t : State} (hs : StoreInv s) (h : stepWith fc s = .next t) :
    StoreInv t := by
  obtain ⟨_, u, hu, rfl⟩ := stepWith_cases h
  exact (exec_storeInv hu hs.fetch).congr (endCycle_mem s.c u) (endCycle_mat s.c u)

/-- A cycle that halts is counted and leaves the branch it took in `CIR`, with the value it loaded still in the target line
(R105). -/
theorem stepWith_halted {fc : FunctionCodes} {s t : State} (h : stepWith fc s = .next t) (hhalt : t.status = .haltedLoop) :
    0 < t.steps ∧ HaltedAtBranch fc t := by
  have htaken := (stepWith_halts_iff h).mp hhalt
  have hc : t.c = s.c := by rw [stepWith_c h, htaken, Option.getD_some]
  obtain ⟨x, hbranch, hvalue⟩ := takenTarget_eq_some_iff.mp htaken
  obtain ⟨v, hv⟩ := execState_of_branch (hbranch.imp_right And.left) (fetch s)
  have ht := stepWith_eq_endCycle h
  rw [hv] at ht
  have hcir : t.cir = s.read (nextAddr s.c) := by rw [ht, endCycle_cir, setC_cir, materialize_cir, fetch_cir]
  have ha : t.a = s.a := by rw [ht, endCycle_a, setC_a, materialize_a, fetch_a]
  have hread : t.read x.toNat = s.read x.toNat := by rw [ht, read_endCycle, read_setC, read_materialize, fetch_read]
  have hcounted : t.steps = s.steps + 1 := by
    rcases stepWith_steps h with ⟨hsteps, _⟩ | ⟨_, hfault⟩
    · exact hsteps
    · exact absurd (.inr hhalt) hfault
  exact ⟨by omega, x, by rwa [hcir, ha], by rw [hread, hvalue, hc]⟩

/-- A raised fault leaves the fetched line at `C`, materialized (R143). -/
theorem fetchedAtC_raise (s : State) (f : FatalFault) : FetchedAtC ((fetch s).raise f) := by
  obtain ⟨hc, hcir, hmat, _, hstore, _⟩ := fetch_raise_leaves s f
  exact ⟨by rw [hc, hcir, hstore], by rw [hc]; exact (hmat _).mpr (.inr (by simp))⟩

/-- What a step keeps: each terminal `STATUS` is reached by the one outcome that makes its clause true. -/
theorem Inv.stepWith {fc : FunctionCodes} {s t : State} (hs : Inv fc s) (h : stepWith fc s = .next t) : Inv fc t where
  store := hs.store.stepWith h
  halted := stepWith_halted h
  invalid hstatus := by
    obtain ⟨hcode, rfl⟩ | ⟨_, rfl⟩ | ⟨_, hdone⟩ := stepWith_outcome h
    · have hcir := (fetch_raise_leaves s (.invalidInstruction (s.read (nextAddr s.c)))).2.1
      exact ⟨hcir.symm, fetchedAtC_raise s _, by rw [hcir, hcode]⟩
    · cases hstatus
    · rw [hdone] at hstatus
      split at hstatus <;> cases hstatus
  unimplemented hstatus := by
    obtain ⟨_, rfl⟩ | ⟨hcode, rfl⟩ | ⟨_, hdone⟩ := stepWith_outcome h
    · cases hstatus
    · exact ⟨fetchedAtC_raise s _, by rw [raise_cir, fetch_cir, hcode]⟩
    · rw [hdone] at hstatus
      split at hstatus <;> cases hstatus

/-- Settles O35: a step keeps the invariant under any function codes, and `step` is a step under FC_REF. -/
theorem everyStepKeepsTheInvariant : Obligations.EveryStepKeepsTheInvariant :=
  ⟨fun _ _ _ hs h => hs.stepWith h, fun _ _ hs h => hs.stepWith h⟩

/-- Reads by the host keep the invariant: they set `V` bits only, and no clause asks for a clear one. -/
theorem Inv.memRead {fc : FunctionCodes} {s : State} (hs : Inv fc s) (addr n : Nat) : Inv fc (s.memRead addr n).2 := by
  obtain ⟨ha, hc, hcir, hmem, hstatus, htext, hsteps⟩ := memRead_fields s addr n
  have hread (x : Nat) : (s.memRead addr n).2.read x = s.read x := by rw [read_eq, hmem, read_eq]
  have hfetched (hf : FetchedAtC s) : FetchedAtC (s.memRead addr n).2 := by
    obtain ⟨hline, hbit⟩ := hf
    exact ⟨by rw [hread, hc, hcir, hline], by rw [hc]; exact memRead_isMat_mono s addr n _ hbit⟩
  refine ⟨hs.store.memRead addr n, fun h => ?_, fun h => ?_, fun h => ?_⟩ <;> rw [hstatus] at h
  · obtain ⟨hpos, x, hbranch, hvalue⟩ := hs.halted h
    exact ⟨by rwa [hsteps], x, by rwa [hcir, ha], by rw [hread, hc, hvalue]⟩
  · obtain ⟨hline, hf, hcode⟩ := hs.invalid h
    exact ⟨by rw [htext, hcir, hline], hfetched hf, by rw [hcir, hcode]⟩
  · obtain ⟨hf, hcode⟩ := hs.unimplemented h
    exact ⟨hfetched hf, by rw [hcir, hcode]⟩

/-- Settles O36: by what an operation of the block can do; `set` and `load` work on a Running machine only. -/
theorem everyHostOperationKeepsTheInvariant : Obligations.EveryHostOperationKeepsTheInvariant := by
  intro p op b hs
  rcases hostApply_cases p op b with ⟨_, hreset⟩ | hkept | ⟨addr, n, _, _, hread⟩ | ⟨pairs, hwindow, _, hload, _⟩ |
    ⟨_, _, t, hstep, hstepped⟩
  · rw [hreset]
    exact resetMeetsTheInvariant p.fc
  · rwa [hkept]
  · rw [hread]
    exact hs.memRead addr n
  · obtain ⟨_, _, _, hstatus, _⟩ := loadPairs_fields p.alphabet pairs b.state
    rw [hload]
    exact .of_running (hs.store.loadPairs p.alphabet pairs) (hstatus.trans ((beforeFirstStep_iff _).mp hwindow).1)
  · rw [hstepped]
    exact hs.stepWith hstep

end Sys2Proof.Machine
end

section
/-!
SUPPORT. The store and the host's operations on it (spec/20_memory.md R39, R45 to R50): reading back a write, equality of
canonical memories, `set` as a write of lines, the two forms of `get`, `dump` and `load`, with the settled statements about
them.
-/

namespace Sys2Proof.Machine

/-! ## Reading back -/

/-- The value of a read does not depend on `V`. -/
theorem memRead_fst_materialize (s : State) (x addr n : Nat) :
    ((s.materialize x).memRead addr n).1 = (s.memRead addr n).1 := by
  simp only [memRead_fst_eq_sum, read_materialize]

/-- Settles O16: by induction on the lines; the first line written is met by no later chunk, as the access is at most 1024
lines long. -/
theorem writeThenReadGivesTheValue : Obligations.WriteThenReadGivesTheValue := by
  intro s addr n v hn hv
  induction n generalizing s addr v with
  | zero => exact (Nat.lt_one_iff.mp hv).symm
  | succ n ih =>
    have hrest : v / 2 ^ 20 < 2 ^ (20 * n) := by
      rw [Nat.mul_succ, Nat.pow_add] at hv
      exact Nat.div_lt_of_lt_mul (by rwa [Nat.mul_comm])
    have hfirst : ((s.memWrite addr (n + 1) v).read (wrap addr)).toNat = v % 2 ^ 20 := by
      simpa [wrap] using memWrite_read_chunk s addr (n + 1) v 0 n.succ_pos fun j _ _ => by omega
    rw [State.memRead, memRead_fst_materialize, hfirst, State.memWrite, ih _ _ _ (by omega) hrest, Nat.mod_add_div]

/-! ## Canonical memories -/

/-- Two canonical memories that read alike have the same first address. -/
theorem Memory.head_le_of_read_eq {p q : Nat × Line} {m m' : Memory} (h : Memory.wf (p :: m)) (h' : Memory.wf (q :: m'))
    (hread : ∀ x, Memory.read (p :: m) x = Memory.read (q :: m') x) : q.1 ≤ p.1 := by
  by_contra hlt
  have hne : p.1 ≠ q.1 := by omega
  have hzero : Memory.read (q :: m') p.1 = 0 := by
    rw [Memory.read, if_neg hne, Memory.read_tail_zero h' (by omega)]
  have hline : Memory.read (p :: m) p.1 = p.2 := by rw [Memory.read, if_pos rfl]
  exact (h.2 p (by simp)).2 (by rw [← hline, hread, hzero])

/-- A canonical memory lists every address that does not read as the zero line, so it is what it reads as. -/
theorem Memory.eq_of_read_eq {m m' : Memory} (h : m.wf) (h' : m'.wf) (hread : ∀ x, m.read x = m'.read x) : m = m' := by
  have hlisted {p : Nat × Line} {m : Memory} (h : Memory.wf (p :: m)) (hread : Memory.read (p :: m) p.1 = 0) : False :=
    (h.2 p (by simp)).2 (by rwa [Memory.read, if_pos rfl] at hread)
  induction m generalizing m' with
  | nil =>
    cases m' with
    | nil => rfl
    | cons q m' => exact (hlisted h' (hread q.1).symm).elim
  | cons p m ih =>
    cases m' with
    | nil => exact (hlisted h (hread p.1)).elim
    | cons q m' =>
      have haddr : p.1 = q.1 :=
        le_antisymm (Memory.head_le_of_read_eq h' h fun x => (hread x).symm) (Memory.head_le_of_read_eq h h' hread)
      have hline : p.2 = q.2 := by
        have := hread p.1
        rwa [Memory.read, Memory.read, if_pos rfl, if_pos haddr] at this
      have htail (x : Nat) : Memory.read m x = Memory.read m' x := by
        by_cases hx : x = p.1
        · rw [Memory.read_tail_zero h hx.le, Memory.read_tail_zero h' (hx.trans haddr).le]
        · have := hread x
          rwa [Memory.read, Memory.read, if_neg hx, if_neg (haddr ▸ hx)] at this
      rw [ih (Memory.wf_tail h) (Memory.wf_tail h') htail, Prod.ext haddr hline]

/-- Settles O18: outside the 1024 addresses a canonical memory reads as the zero line. -/
theorem memoriesThatReadAlikeAreEqual : Obligations.MemoriesThatReadAlikeAreEqual := by
  intro m m' h h' hread
  refine Memory.eq_of_read_eq h h' fun x => ?_
  by_cases hx : x < 1024
  · exact hread x hx
  · rw [Memory.read_outside h (by omega), Memory.read_outside h' (by omega)]

/-! ## `set` -/

/-- The first four symbols are the low line of the value, and the rest is the value of the lines after it. -/
theorem dec_take_drop (v : Numeral) : dec (v.take 4) = dec v % 2 ^ 20 ∧ dec (v.drop 4) = dec v / 2 ^ 20 := by
  have hlow := dec_lt (v.take 4)
  have hsplit := dec_append (v.take 4) (v.drop 4)
  rw [List.take_append_drop] at hsplit
  by_cases hlength : 4 ≤ v.length
  · rw [List.length_take_of_le hlength] at hlow hsplit
    omega
  · have hshort : v.length ≤ 4 := by omega
    have hpow : 32 ^ v.length ≤ 32 ^ 4 := Nat.pow_le_pow_right (by omega) hshort
    rw [List.take_of_length_le hshort] at hlow ⊢
    rw [List.drop_eq_nil_of_le hshort, dec_nil]
    omega

/-- `set` of a value, chunk by chunk (R46), is `MemWrite` of the number it stands for (R44), shorter values padded. -/
theorem writeChunks_eq_memWrite (s : State) (base k : Nat) (v : Numeral) :
    writeChunks s base k v = s.memWrite base k (dec v) := by
  induction k generalizing s base v with
  | zero => rfl
  | succ k ih =>
    obtain ⟨hlow, hhigh⟩ := dec_take_drop v
    have hline : BitVec.ofNat 20 (dec v % 2 ^ 20) = BitVec.ofNat 20 (dec v) := BitVec.eq_of_toNat_eq (by simp)
    rw [writeChunks, ih, dec_padLine, hlow, hhigh, hline, State.memWrite]

theorem setNumeral_eq_memWrite (s : State) (address value : Numeral) :
    setNumeral s address value = s.memWrite (dec address) ((value.length + 3) / 4) (dec value) :=
  writeChunks_eq_memWrite ..

theorem memWrite_one {base : Nat} (hbase : base < 1024) (s : State) (v : Nat) :
    s.memWrite base 1 v = s.writeLine base (BitVec.ofNat 20 v) := by
  rw [State.memWrite, State.memWrite, wrap, Nat.mod_eq_of_lt hbase]

theorem memWrite_two {base : Nat} (hbase : base < 1024) (s : State) (v : Nat) : s.memWrite base 2 v =
    (s.writeLine base (BitVec.ofNat 20 v)).writeLine ((base + 1) % 1024) (BitVec.ofNat 20 (v / 2 ^ 20)) := by
  rw [State.memWrite, State.memWrite, State.memWrite, wrap, Nat.mod_eq_of_lt hbase, wrap]

/-- Settles O19: `set` is a write of no line, of one or of two, by the length of the value. -/
theorem setWritesByLength : Obligations.SetWritesByLength := by
  intro s address value haddress hvalue
  have hbase : dec address < 1024 :=
    (dec_lt address).trans_le (Nat.pow_le_pow_right (by decide) haddress)
  have hbound {n : Nat} (hn : value.length ≤ n) : dec value < 32 ^ n :=
    (dec_lt value).trans_le (Nat.pow_le_pow_right (by decide) hn)
  obtain ⟨ha, hc, hcir, hengine⟩ := memWrite_fields s (dec address) ((value.length + 3) / 4) (dec value)
  simp only [setNumeral_eq_memWrite]
  refine ⟨hbase, fun h0 => ?_, fun h1 h4 => ?_, fun h5 => ?_, hengine, ha, hc, hcir⟩
  · rw [show (value.length + 3) / 4 = 0 by omega, State.memWrite]
  · have hv : dec value < 2 ^ 20 := hbound h4
    rw [show (value.length + 3) / 4 = 1 by omega, memWrite_one hbase]
    refine ⟨?_, fun x hx => ?_, matAdds_writeLine s _ _⟩
    · rw [read_writeLine, if_pos rfl, BitVec.toNat_ofNat, Nat.mod_eq_of_lt hv]
    · rw [read_writeLine, if_neg hx]
  · have hv : dec value / 2 ^ 20 < 2 ^ 20 := Nat.div_lt_of_lt_mul (hbound hvalue)
    have hne : dec address ≠ (dec address + 1) % 1024 := by omega
    rw [show (value.length + 3) / 4 = 2 by omega, memWrite_two hbase]
    refine ⟨?_, ?_, fun x hx hnext => ?_, (matAdds_writeLine s _ _).trans (matAdds_writeLine _ _ _)⟩
    · rw [read_writeLine, if_neg hne, read_writeLine, if_pos rfl, BitVec.toNat_ofNat]
    · rw [read_writeLine, if_pos rfl, BitVec.toNat_ofNat, Nat.mod_eq_of_lt hv]
    · rw [read_writeLine, if_neg hnext, read_writeLine, if_neg hx]

/-! ## `get` and `dump` -/

theorem getText_fst (s : State) (addr n : Nat) :
    (getText s addr n).1 = ((accessAddrs addr n).map fun x => enc20 (s.read x).toNat).flatten := by
  induction n generalizing s addr with
  | zero => rfl
  | succ n ih =>
    rw [accessAddrs_succ, List.map_cons, List.flatten_cons, getText, ih]
    rfl

theorem dec_getText (s : State) (addr n : Nat) : dec (getText s addr n).1 = (s.memRead addr n).1 := by
  induction n generalizing s addr with
  | zero => rfl
  | succ n ih =>
    have hlength (l : Line) : (enc20 l.toNat).length = 4 := length_symbols 4 _
    rw [getText, dec_append, hlength, dec_enc20_line, ih]
    rfl

theorem length_getText (s : State) (addr n : Nat) : (getText s addr n).1.length = 4 * n := by
  induction n generalizing s addr with
  | zero => rfl
  | succ n ih =>
    have hlength (l : Line) : (enc20 l.toNat).length = 4 := length_symbols 4 _
    rw [getText, List.length_append, hlength, ih]
    omega

/-- Settles O22: each line adds its four symbols to the text as it adds its 20 bits to the number. -/
theorem getTextDecodesToGetInt : Obligations.GetTextDecodesToGetInt := by
  intro s addr count
  refine ⟨?_, rfl, dec_getText s addr count, length_getText s addr count, getText_snd s addr count⟩
  rw [getText_fst, accessAddrs, List.map_map]
  rfl

theorem mem_dump_iff (s : State) (x : Nat) (text : Numeral) :
    (x, text) ∈ dump s ↔ s.isMat x = true ∧ text = enc20 (s.read x).toNat := by
  rw [isMat_iff, dump, List.mem_toFinset, List.mem_map]
  constructor
  · rintro ⟨y, hy, heq⟩
    obtain ⟨rfl, rfl⟩ := Prod.mk.inj heq
    exact ⟨hy, rfl⟩
  · rintro ⟨hx, rfl⟩
    exact ⟨x, hx, rfl⟩

/-- Settles O23: the list behind the set runs over the addresses whose bit is 1. -/
theorem dumpIsTheMaterializedLines : Obligations.DumpIsTheMaterializedLines := ⟨mem_dump_iff, fun _ _ => rfl⟩

/-! ## `load` -/

section Load
variable {al : Alphabet} {address value : List Char} {s : State}

theorem loadPairs_cons_of_next {t : State} (h : setText al address value s = .next t)
    (rest : List (List Char × List Char)) : loadPairs al ((address, value) :: rest) s = loadPairs al rest t := by
  simp only [loadPairs, h]

theorem loadPairs_cons_of_refused {r : Refusal} (h : setText al address value s = .refused r)
    (rest : List (List Char × List Char)) : loadPairs al ((address, value) :: rest) s = (s, some r) := by
  simp only [loadPairs, h]

end Load

/-- A list that loads without refusal, followed by others, goes on from the state it leaves (R49). -/
theorem loadPairs_append {al : Alphabet} {good : List (List Char × List Char)} {s t : State}
    (h : loadPairs al good s = (t, none)) (rest : List (List Char × List Char)) :
    loadPairs al (good ++ rest) s = loadPairs al rest t := by
  induction good generalizing s with
  | nil =>
    cases h
    rfl
  | cons p good ih =>
    obtain ⟨address, value⟩ := p
    obtain ⟨x, v, hset⟩ | hset := setText_cases al address value s
    · rw [loadPairs_cons_of_next hset] at h
      rw [List.cons_append, loadPairs_cons_of_next hset, ih h]
    · rw [loadPairs_cons_of_refused hset] at h
      cases h

/-- In its window the host's `load` keeps what `loadPairs` leaves (R58). -/
theorem hostApply_load_of_done {p : Params} {pairs : List (List Char × List Char)} {b : Block} {t : State}
    (hw : beforeFirstStep b.state = true) (h : loadPairs p.alphabet pairs b.state = (t, none)) :
    hostApply p (.load pairs) b = ⟨{ b with state := t }, .done⟩ := by
  simp only [hostApply, hw, if_true, loadResponse, h]

/-- In its window a refused `load` keeps the pairs before the refused one and marks the block (U13). -/
theorem hostApply_load_of_refused {p : Params} {pairs : List (List Char × List Char)} {b : Block} {t : State} {r : Refusal}
    (hw : beforeFirstStep b.state = true) (h : loadPairs p.alphabet pairs b.state = (t, some r)) :
    hostApply p (.load pairs) b = ⟨⟨t, true⟩, .refused r⟩ := by
  simp only [hostApply, hw, if_true, loadResponse, h]

/-- Settles O21: `set` answers a state or Malformed Field, and `load` follows it pair by pair. -/
theorem loadStopsAtTheFirstRefusedPair : Obligations.LoadStopsAtTheFirstRefusedPair := by
  refine ⟨fun al s => rfl, fun al address value rest s => ⟨fun t h => loadPairs_cons_of_next h rest,
      fun r h => loadPairs_cons_of_refused h rest, (setText_cases al address value s).imp_left fun ⟨x, v, h⟩ => ⟨_, h⟩⟩,
    fun al good rest address value s t h => ⟨loadPairs_append h rest, fun r hr => ?_⟩,
    fun p pairs b hw => ⟨fun t h => hostApply_load_of_done hw h, fun t r h => hostApply_load_of_refused hw h⟩⟩
  rw [loadPairs_append h, loadPairs_cons_of_refused hr]

end Sys2Proof.Machine
end

section
/-!
SUPPORT. What follows from the cycle (spec/41_cycle_fetch_decode_run.md, spec/43_accumulator_transfer.md,
spec/44_arithmetic.md): the cycle of a STA and what the next one fetches, the host's placed word, storing and loading back,
the signed reading of arithmetic, and the step record, with the settled statements about them.
-/

namespace Sys2Proof.Machine

/-! ## The store and the next fetch -/

/-- The cycle that fetches a STA line: the pair is stored on the state fetch leaves, and the cycle ends (R120). -/
theorem stepWith_of_sta {fc : FunctionCodes} {x : Addr} {s : State} (hr : s.status = .running)
    (hsta : decode fc (s.read (nextAddr s.c)) = .sta x) :
    stepWith fc s = .next (endCycle s.c ((storePair (fetch s) x s.a).setCir (lowLine s.a))) := by
  have hexec : exec (decode fc (s.read (nextAddr s.c))) (fetch s) =
      .next ((storePair (fetch s) x s.a).setCir (lowLine s.a)) := by
    rw [hsta, exec_sta_eq_storePair, fetch_a]
  exact stepWith_of_exec hr hexec

theorem nextAddr_add_one (c : Addr) : nextAddr (c + 1) = (c.toNat + 2) % 1024 := by
  rw [nextAddr, toNat_add_one, nextAddr]
  omega

/-- Settles O39: the stored lines stand in the state the next fetch reads, at the address after the STA's own. -/
theorem storeIsSeenByTheNextFetch : Obligations.StoreIsSeenByTheNextFetch := by
  intro fc s x hr hsta
  obtain ⟨_, hc, _, hstatus, _⟩ := memWrite_fields (fetch s) x.toNat 2 s.a.toNat
  have hmoved : (storePair (fetch s) x s.a).c = s.c + 1 := hc.trans (fetch_c s)
  have hrunning : (storePair (fetch s) x s.a).status = .running := hstatus.trans ((fetch_status s).trans hr)
  have hend := endCycle_running s.c ((storePair (fetch s) x s.a).setCir (lowLine s.a)) hrunning
  refine ⟨_, stepWith_of_sta hr hsta, ?_, ?_⟩
  · rw [hend.2, setCir_c, hmoved, if_neg (c_add_one_ne s.c)]
  · rw [fetch_cir, endCycle_c, setCir_c, hmoved, nextAddr_add_one, read_endCycle, read_setCir, storePair_read, fetch_read]
    by_cases hx : (s.c.toNat + 2) % 1024 = x.toNat
    · have hne : (s.c.toNat + 2) % 1024 ≠ nextAddr x := hx ▸ (nextAddr_ne x).symm
      rw [if_neg hne, if_pos hx, if_pos hx, lowLine_toNat]
    · rw [if_neg hx, if_neg hx]
      by_cases hnext : (s.c.toNat + 2) % 1024 = nextAddr x
      · rw [if_pos hnext, highLine_toNat]
        exact (if_pos hnext).symm
      · rw [if_neg hnext]
        exact (if_neg hnext).symm

/-! ## The placed word -/

/-- Settles O40: fetch reads the line at `C + 1`, which is the line the host wrote. -/
theorem placedWordIsTheOneFetched : Obligations.PlacedWordIsTheOneFetched := by
  intro s nbits w t
  have hread (x : Nat) : t.read x = if x = nextAddr s.c then tableLine nbits w else s.read x := by
    rw [← toNat_add_one]
    exact read_writeLine s _ _ x
  have hmat : MatAdds s t [nextAddr s.c] := by
    rw [← toNat_add_one]
    exact matAdds_writeLine s _ (tableLine nbits w)
  refine ⟨?_, rfl, rfl, rfl, rfl, rfl, rfl, hmat, fun x hx => ?_⟩
  · rw [fetch_cir, hread]
    exact congrArg (fun l => some (decode fcRef l)) (if_pos rfl).symm
  · exact (hread x).trans (if_neg hx)

/-! ## Storing and loading back -/

/-- Settles O52: the pair LDA reads is the two lines of the `A` that STA stored. -/
theorem storeThenLoadRestores : Obligations.StoreThenLoadRestores := by
  intro addr s
  refine ⟨_, exec_sta_eq_storePair s addr, fun u hlow hhigh => ⟨_, exec_lda u addr, BitVec.eq_of_toNat_eq ?_⟩⟩
  have hhigh : u.read (nextAddr addr) = highLine s.a := by
    refine hhigh.trans ?_
    exact (storePair_read s addr s.a _).trans (if_pos rfl)
  rw [read_setCir, storePair_read, if_neg (nextAddr_ne addr).symm, if_pos rfl] at hlow
  rw [setA_a, sPairData_toNat, pairAt, hlow, hhigh, lines_of_acc]

/-! ## The signed reading -/

theorem accAdd_eq_add (x y : Acc) : accAdd x y = x + y :=
  BitVec.eq_of_toNat_eq (by rw [accAdd_toNat, BitVec.toNat_add])

theorem accSub_eq_sub (x y : Acc) : accSub x y = x - y := by
  have hresidue := accSub_toNat_cast x y
  have hx := x.isLt
  have hy := y.isLt
  apply BitVec.eq_of_toNat_eq
  rw [BitVec.toNat_sub]
  omega

theorem accDouble_eq_add (y : Acc) : accDouble y = y + y :=
  BitVec.eq_of_toNat_eq (by rw [accDouble_toNat, BitVec.toNat_add, Nat.two_mul])

/-- Bit 39 is the sign of the two's complement reading. -/
theorem signBit_iff_toInt_neg (v : Acc) : signBit v = true ↔ v.toInt < 0 := by
  rw [signBit_iff, BitVec.toInt_neg_iff]
  omega

/-- Settles O53: reduction modulo 2^40 is two's complement arithmetic, and the branch tests the sign. -/
theorem signedReadingOfArithmetic : Obligations.SignedReadingOfArithmetic := by
  intro addr s operand
  have hoperand : (sPairData s addr).1.toInt = operand := by rw [sPairData_fst]
  refine ⟨fun t ht => ?_, fun t ht => ?_, fun t ht => ?_, fun t ht hpos => ?_, fun t ht hneg => ?_⟩
  · cases (exec_add s addr).symm.trans ht
    rw [setA_a, accAdd_eq_add, BitVec.toInt_add, hoperand]
  · cases (exec_sub s addr).symm.trans ht
    rw [setA_a, accSub_eq_sub, BitVec.toInt_sub, hoperand]
  · cases (exec_dbl s addr).symm.trans ht
    rw [setA_a, accDouble_eq_add, BitVec.toInt_add, hoperand, Int.two_mul]
  · cases (exec_cba_eq_setC s addr).symm.trans ht
    have hsign : ¬ signBit s.a = true := by
      rw [signBit_iff_toInt_neg]
      omega
    rw [setC_c, if_neg hsign, branchValue_toNat]
  · cases (exec_cba_eq_setC s addr).symm.trans ht
    rw [setC_c, if_pos ((signBit_iff_toInt_neg s.a).mpr hneg)]

/-! ## The step record -/

theorem storeAddr_eq_none_iff (i : Instr) : storeAddr i = none ↔ ∀ x, i ≠ .sta x := by
  cases i <;> simp [storeAddr]

/-- Settles O56: the fields are read off the state fetch leaves, and STA, the one operation that stores, keeps `A`. -/
theorem stepRecordOfEachCycle : Obligations.StepRecordOfEachCycle := by
  intro fc s t h
  refine ⟨fun hfree => ?_, fun hfault => stepRecord_of_fault h (not_faultFree hfault)⟩
  have hdone : t.status = .running ∨ t.status = .haltedLoop := hfree
  simp only [stepRecord, h, if_pos hdone, fetch_cir, fetch_c_toNat]
  refine ⟨_, rfl, rfl, rfl, rfl, rfl, fun x hx => ?_, fun hx => ?_⟩
  · have hsta : decode fc (s.read (nextAddr s.c)) = .sta x := hx
    have ha : t.a = s.a := by
      by_contra hne
      obtain ⟨y, hy⟩ := (writersOfEachItem fc s t h).1 hne
      simp [hx] at hy
    simp only [hsta, storeAddr, Option.map_some, ha, and_self]
  · have hnone : storeAddr (decode fc (s.read (nextAddr s.c))) = none := (storeAddr_eq_none_iff _).mpr hx
    simp only [hnone, Option.map_none, and_self]

end Sys2Proof.Machine
end

section
/-!
SUPPORT. The host's windows (spec/20_memory.md R58), what it can do to a terminal machine and to a block whose `load` was
refused (spec/93_implementation_defined.md U13), and how a run ends and is single-stepped (R107, R113, R156), with the
settled statements about them.
-/

namespace Sys2Proof.Machine

/-! ## The windows -/

theorem beforeFirstStep_eq_false (s : State) :
    beforeFirstStep s = false ↔ s.status ≠ .running ∨ 0 < s.steps := by
  rw [← Bool.not_eq_true, beforeFirstStep_iff, not_and_or, Nat.pos_iff_ne_zero]

theorem getWindow_iff (n : Nat) (s : State) :
    getWindow n s = true ↔ s.status ≠ .running ∨ s.steps = 0 ∨ (0 < n ∧ n ≤ s.steps) := by
  rw [getWindow, Bool.or_eq_true, Bool.not_eq_true', beforeFirstStep_iff, mayStep_eq_false, Nat.pos_iff_ne_zero]
  tauto

section Windows
variable {p : Params} {b : Block}

theorem hostApply_set_outside (hw : beforeFirstStep b.state = false) (address value : List Char) :
    hostApply p (.set address value) b = ⟨b, .refused .outsideWindow⟩ := by
  simp only [hostApply, hw, Bool.false_eq_true, if_false]

theorem hostApply_load_outside (hw : beforeFirstStep b.state = false) (pairs : List (List Char × List Char)) :
    hostApply p (.load pairs) b = ⟨b, .refused .outsideWindow⟩ := by
  simp only [hostApply, hw, Bool.false_eq_true, if_false]

theorem hostApply_getText_outside (hw : getWindow p.maxSteps b.state = false) (addr n : Nat) :
    hostApply p (.getText addr n) b = ⟨b, .refused .outsideWindow⟩ := by
  simp only [hostApply, hw, Bool.false_eq_true, if_false]

theorem hostApply_getInt_outside (hw : getWindow p.maxSteps b.state = false) (addr n : Nat) :
    hostApply p (.getInt addr n) b = ⟨b, .refused .outsideWindow⟩ := by
  simp only [hostApply, hw, Bool.false_eq_true, if_false]

theorem hostApply_getText (hw : getWindow p.maxSteps b.state = true) (addr n : Nat) :
    hostApply p (.getText addr n) b =
      ⟨{ b with state := (getText b.state addr n).2 }, .text (getText b.state addr n).1⟩ := by
  simp only [hostApply, hw, if_true]

theorem hostApply_getInt (hw : getWindow p.maxSteps b.state = true) (addr n : Nat) :
    hostApply p (.getInt addr n) b =
      ⟨{ b with state := (getInt b.state addr n).2 }, .int (getInt b.state addr n).1⟩ := by
  simp only [hostApply, hw, if_true]

/-- The host's step of a block fit to run is the machine's, with its record (R156). -/
theorem hostApply_step_of_next {t : State} (hfit : b.loadRefused = false) (h : stepWith p.fc b.state = .next t) :
    hostApply p .step b = ⟨⟨t, false⟩, .cycle (stepRecord p.fc b.state)⟩ := by
  simp only [hostApply, hfit, h, Bool.false_eq_true, if_false]

theorem hostApply_step_of_fault {f : Fault} (hfit : b.loadRefused = false) (h : stepWith p.fc b.state = .fault f) :
    hostApply p .step b = ⟨b, .stuck f⟩ := by
  simp only [hostApply, hfit, h, Bool.false_eq_true, if_false]

end Windows

/-- R58: no cycle leaves a state in the window of `set` and `load`. -/
theorem stepWith_past_window {fc : FunctionCodes} {s t : State} (h : stepWith fc s = .next t) :
    t.status ≠ .running ∨ 0 < t.steps := by
  rcases stepWith_steps h with ⟨hcounted, _⟩ | ⟨_, hfault⟩
  · exact .inr (by omega)
  · exact .inl fun hr => hfault (.inl hr)

/-- Once past the window of `set` and `load`, only `Reset` leads back into it. -/
theorem hostApply_past_window {p : Params} {op : HostOp} {b : Block} (hop : op ≠ .reset)
    (hpast : b.state.status ≠ .running ∨ 0 < b.state.steps) :
    (hostApply p op b).block.state.status ≠ .running ∨ 0 < (hostApply p op b).block.state.steps := by
  rcases hostApply_cases p op b with ⟨hreset, _⟩ | hkept | ⟨addr, n, _, _, hread⟩ | ⟨_, hwindow, _⟩ |
    ⟨_, _, t, hstep, hstepped⟩
  · exact absurd hreset hop
  · rwa [hkept]
  · obtain ⟨_, _, _, _, hstatus, _, hsteps⟩ := memRead_fields b.state addr n
    rw [hread]
    simpa only [hstatus, hsteps] using hpast
  · rw [(beforeFirstStep_eq_false _).mpr hpast] at hwindow
    cases hwindow
  · rw [hstepped]
    exact stepWith_past_window hstep

/-- Settles O24: each window is read off `STATUS`, `STEPS` and the bound, and inside it the operation answers what the
machine's own answers. -/
theorem hostIsRefusedOutsideItsWindows : Obligations.HostIsRefusedOutsideItsWindows := by
  refine ⟨fun fc s t => stepWith_past_window, fun p op b hop hpast => ⟨hostApply_past_window hop hpast, ?_⟩,
    fun p op b hr hsteps hbound => ?_, fun p pairs b hr hsteps => ?_, fun p addr count b hopen => ?_⟩
  · have hw := (beforeFirstStep_eq_false b.state).mpr hpast
    rintro (⟨address, value, rfl⟩ | ⟨pairs, rfl⟩)
    · exact hostApply_set_outside hw address value
    · exact hostApply_load_outside hw pairs
  · have hw : getWindow p.maxSteps b.state = false := by
      rw [← Bool.not_eq_true, getWindow_iff]
      rintro (hterminal | hzero | ⟨hpos, hmet⟩)
      · exact hterminal hr
      · omega
      · omega
    rintro (⟨addr, n, rfl⟩ | ⟨addr, n, rfl⟩)
    · exact hostApply_getText_outside hw addr n
    · exact hostApply_getInt_outside hw addr n
  · have hw := (beforeFirstStep_iff b.state).mpr ⟨hr, hsteps⟩
    rcases hload : loadPairs p.alphabet pairs b.state with ⟨t, _ | r⟩
    · rw [hostApply_load_of_done hw hload]
      exact ⟨rfl, fun _ => rfl, nofun⟩
    · rw [hostApply_load_of_refused hw hload]
      refine ⟨rfl, nofun, fun r' hr' => ?_⟩
      cases hr'
      rfl
  · have hw := (getWindow_iff p.maxSteps b.state).mpr hopen
    exact ⟨hostApply_getText hw addr count, hostApply_getInt hw addr count⟩

/-! ## A terminal machine -/

/-- Of a terminal machine the host can only read: every operation but `Reset` and `get` leaves the block as it is. -/
theorem hostApply_of_terminal {p : Params} {op : HostOp} {b : Block} (hs : b.state.status ≠ .running)
    (hop : op ≠ .reset) : (hostApply p op b).block = b ∨ ∃ addr n, (op = .getText addr n ∨ op = .getInt addr n) ∧
      (hostApply p op b).block = { b with state := (b.state.memRead addr n).2 } := by
  rcases hostApply_cases p op b with ⟨hreset, _⟩ | hkept | ⟨addr, n, hget, _, hread⟩ | ⟨_, hwindow, _⟩ |
    ⟨_, _, t, hstep, _⟩
  · exact absurd hreset hop
  · exact .inl hkept
  · exact .inr ⟨addr, n, hget, hread⟩
  · exact absurd ((beforeFirstStep_iff _).mp hwindow).1 hs
  · exact absurd hstep (stepWith_ne_next_of_terminal hs t)

/-- Settles O25: a `get` reads the store and sets `V` bits, and no other operation that is offered has anything to do. -/
theorem terminalStatesAreAbsorbing : Obligations.TerminalStatesAreAbsorbing := by
  intro p op b hs hop s t
  have hstuck : stepWith p.fc s = .fault (.stuck s.status) := stepWith_of_terminal p.fc hs
  have hstep : op = .step → b.loadRefused = false → hostApply p op b = ⟨b, .stuck (.stuck s.status)⟩ := by
    rintro rfl hfit
    exact hostApply_step_of_fault hfit hstuck
  obtain hkept | ⟨addr, n, hget, hread⟩ := hostApply_of_terminal (p := p) hs hop
  · have ht : t = s := congrArg Block.state hkept
    rw [ht]
    exact ⟨rfl, rfl, rfl, fun _ => rfl, ⟨rfl, rfl, rfl⟩, fun _ => id, fun _ _ => hkept, hstuck, hstep⟩
  · have ht : t = (s.memRead addr n).2 := congrArg Block.state hread
    obtain ⟨ha, hc, hcir, hmem, hengine⟩ := memRead_fields s addr n
    have hstore : SameStore s (s.memRead addr n).2 := fun x => by rw [read_eq, hmem, read_eq]
    rw [ht]
    refine ⟨ha, hc, hcir, hstore, hengine, memRead_isMat_mono s addr n, fun htext hint => ?_, hstuck, hstep⟩
    rcases hget with hget | hget
    · exact absurd hget (htext addr n)
    · exact absurd hget (hint addr n)

/-! ## A block unfit to run -/

/-- A marked block keeps its mark and its engine under every operation but `Reset` (U13). -/
theorem hostApply_of_loadRefused {p : Params} {op : HostOp} {b : Block} (hmark : b.loadRefused = true)
    (hop : op ≠ .reset) : (hostApply p op b).block.loadRefused = true ∧ SameEngine b.state (hostApply p op b).block.state := by
  rcases hostApply_cases p op b with ⟨hreset, _⟩ | hkept | ⟨addr, n, _, _, hread⟩ | ⟨pairs, _, _, hload, hkeeps⟩ |
    ⟨_, hfit, _⟩
  · exact absurd hreset hop
  · rw [hkept]
    exact ⟨hmark, rfl, rfl, rfl⟩
  · obtain ⟨_, _, _, _, hengine⟩ := memRead_fields b.state addr n
    rw [hread]
    exact ⟨hmark, hengine⟩
  · obtain ⟨_, _, _, hengine⟩ := loadPairs_fields p.alphabet pairs b.state
    rw [hload]
    exact ⟨hkeeps hmark, hengine⟩
  · rw [hmark] at hfit
    cases hfit

/-- Settles O57: the mark is set by a refused `load`, asked for by `step`, and taken away by `Reset` alone. -/
theorem refusedLoadIsNotRun : Obligations.RefusedLoadIsNotRun := by
  refine ⟨fun p pairs b r hw hr => ?_, fun p b hmark => ⟨?_, fun op => hostApply_of_loadRefused hmark⟩,
    fun p pairs fuel t r h => ?_, fun p b => ⟨rfl, fun hfit t => hostApply_step_of_next hfit⟩⟩
  · rw [hostApply_load_of_refused hw (Prod.ext rfl hr)]
  · simp only [hostApply, hmark, if_true]
  · simp only [bootAndRun, h]

/-! ## The end of a run -/

/-- Where a run ends, more cycles change nothing. -/
theorem RunEndsAt.runFor_eq {fc : FunctionCodes} {n : Nat} {s t : State} (h : RunEndsAt fc n s t) :
    ∃ fuel, ∀ more, runFor fc n (fuel + more) s = t := by
  obtain ⟨fuel, hrun, hend⟩ := h
  exact ⟨fuel, fun more => by rw [runFor_add, hrun, runFor_stop hend]⟩

theorem RunEndsAt.unique {fc : FunctionCodes} {n : Nat} {s t u : State} (ht : RunEndsAt fc n s t)
    (hu : RunEndsAt fc n s u) : t = u := by
  obtain ⟨j, hj⟩ := ht.runFor_eq
  obtain ⟨k, hk⟩ := hu.runFor_eq
  rw [← hj k, Nat.add_comm, hk j]

/-- A Running machine has ended at its bound or may go on (R107, R113). -/
theorem runEnd_of_running {n : Nat} {s : State} (hr : s.status = .running) :
    runEnd n s = if mayStep n s then none else some .stepBound := by
  simp only [runEnd, hr]

/-- Settles O55: a run is a function of its start and its bound, and `STATUS` names the end, but for the step bound. -/
theorem runEndsInOneWay : Obligations.RunEndsInOneWay := by
  refine ⟨fun fc n s t u => RunEndsAt.unique, fun n s => ?_⟩
  cases hs : s.status with
  | running =>
    rw [runEnd_of_running hs]
    cases hm : mayStep n s with
    | true =>
      have hopen : ¬ (0 < n ∧ n ≤ s.steps) := by
        obtain ⟨_, hbelow⟩ := (mayStep_iff n s).mp hm
        omega
      simp [hopen, finalReport, hs]
    | false =>
      have hmet : n ≠ 0 ∧ n ≤ s.steps := ((mayStep_eq_false n s).mp hm).resolve_left (not_not_intro hs)
      simp [Nat.pos_iff_ne_zero, hmet, finalReport, hs]
  | haltedLoop => simp [runEnd, mayStep_iff, finalReport, hs]
  | faultInvalid => simp [runEnd, mayStep_iff, finalReport, hs, @eq_comm Numeral]
  | faultUnimplemented => simp [runEnd, mayStep_iff, finalReport, hs]

/-! ## Single-stepping -/

theorem runCall_zero (fc : FunctionCodes) (s : State) : runCall fc 0 s = s := by
  rw [runCall_eq, runFor]

/-- A call of `Run(1)` is a step (R156). -/
theorem runCall_one_of_next {fc : FunctionCodes} {s t : State} (h : stepWith fc s = .next t) : runCall fc 1 s = t := by
  rw [runCall_next h, runCall_zero]

/-- `n` calls of `Run(1)` run what one call of `Run(n)` runs (R156). -/
theorem iterate_runCall_one (fc : FunctionCodes) (n : Nat) (s : State) : (runCall fc 1)^[n] s = runCall fc n s := by
  induction n generalizing s with
  | zero => exact (runCall_zero fc s).symm
  | succ n ih =>
    rw [Function.iterate_succ_apply, ih]
    by_cases hr : s.status = .running
    · obtain ⟨t, ht⟩ := stepWith_running fc hr
      rw [runCall_one_of_next ht, runCall_next ht]
    · rw [runCall_stop hr, runCall_stop hr, runCall_stop hr]

/-- The records of a call of `Run(1)` are those of the step: none in a terminal state (R110). -/
theorem runCallTrace_one (fc : FunctionCodes) (s : State) : runCallTrace fc 1 s = (stepRecord fc s).toList := by
  by_cases hr : s.status = .running
  · obtain ⟨t, ht⟩ := stepWith_running fc hr
    have hm : mayStep (s.steps + 1) s = true := (mayStep_iff _ s).mpr ⟨hr, .inr (by omega)⟩
    simp only [runCallTrace, runTrace, hm, if_true, ht, List.append_nil]
  · have hm : mayStep (s.steps + 1) s = false := (mayStep_eq_false _ s).mpr (.inl hr)
    simp only [runCallTrace, runTrace, hm, Bool.false_eq_true, if_false, stepRecord, stepWith_of_terminal fc hr,
      Option.toList_none]

/-- On a block fit to run the host's step and a call of `Run(1)` leave the same block (R156). -/
theorem hostApply_step_eq_runCall (p : Params) {b : Block} (hfit : b.loadRefused = false) :
    (hostApply p .step b).block = { b with state := runCall p.fc 1 b.state } := by
  by_cases hr : b.state.status = .running
  · obtain ⟨t, ht⟩ := stepWith_running p.fc hr
    rw [hostApply_step_of_next hfit ht, runCall_one_of_next ht, hfit]
  · rw [hostApply_step_of_fault hfit (stepWith_of_terminal p.fc hr), runCall_stop hr]

/-- Settles O58: a call of `Run` is R107's loop with its bound counted from the call, taken one step at a time. -/
theorem runOneRepeatedSingleSteps : Obligations.RunOneRepeatedSingleSteps := by
  refine ⟨iterate_runCall_one, fun fc s => ⟨fun t => runCall_one_of_next, fun hs => runCall_stop hs 1, fun hr => ?_,
    runCallTrace_one fc s⟩, fun p b => hostApply_step_eq_runCall p, fun fc n s hn => ?_⟩
  · obtain ⟨t, ht⟩ := stepWith_running fc hr
    exact ⟨t, ht, runCall_one_of_next ht⟩
  · have hbound : 0 < s.steps + n := by omega
    have hend : RunEndsAt fc (s.steps + n) s (runCall fc n s) := runBounded_endsAt fc hbound s
    have hle : (runCall fc n s).steps ≤ s.steps + n := runBounded_steps_le fc hbound (by omega)
    exact ⟨fun h0 => by rw [runCall, h0, Nat.zero_add], hend, hle, fun hr => hle.antisymm (hend.bound_of_running hr).2⟩

end Sys2Proof.Machine
end
